-- ==== Sys2Proof/Word.lean ====
section
/-! DEFINITION. The machine's words: 32-bit registers and command words (rule R9), the 64-bit words of SHA-512
(rule R66), and bytes (rule R12). All are unsigned; addition wraps (rules R17, R128). -/

namespace Sys2Proof

/-- A 32-bit word: an argument register, a host register access, a command word (rule R9). -/
abbrev Word := BitVec 32

/-- A 64-bit word of a SHA-512 state or block (rule R66). -/
abbrev DWord := BitVec 64

/-- A byte of MEM (rule R12). -/
abbrev Byte := BitVec 8

end Sys2Proof
end

