-- ==== Sys2Proof/Config.lean ====
section
/-! DEFINITION. The parameters of the implementation (rules R7, R8): fixed for one machine, read by every step and
written by none (rule R293). LAT (rule R9) is time, which the model does not have (log entry 2). -/

namespace Sys2Proof

/-- Which representative a command stores for a residue it leaves in intermediate form (rule R8): the default
choice, the canonical one, or that of some other implementation, named by a number. What such an
implementation stores is fixed by `Config.freeRep255` and `Config.freeRep130`, about which nothing is known. -/
inductive RepChoice where
  | canonical
  | other (implementation : Nat)
  deriving DecidableEq, Repr

/-- The open parameters of the spec (rules R7, R8; table of 92_eei_decisions.md). -/
structure Config where
  memBytes : Nat
  rep255   : RepChoice
  rep130   : RepChoice
  deriving DecidableEq, Repr

/-- The default parameters: MEM_BYTES = 4096 (rule R7), REP255 and REP130 the identity (rule R8). -/
def Config.default : Config := ⟨4096, .canonical, .canonical⟩

/-- FREE VALUE (log entry 3). For an implementation and a residue mod 2^255 - 19: which of the residue's containers
below 2^256 the implementation stores. No body: nothing can be proved about its values. -/
opaque Config.freeRep255 : Nat → Nat → Nat

/-- FREE VALUE (log entry 3). For an implementation and a residue mod 2^130 - 5: which of the residue's containers
below 2^136 the implementation stores. No body: nothing can be proved about its values. -/
opaque Config.freeRep130 : Nat → Nat → Nat

end Sys2Proof
end

