-- ==== Sys2Proof/Syntax.lean ====
section
/-! DEFINITION. The seventeen commands of rule R94, one constructor per row of spec/opcode_table.json. A command's
immediates are fields of its word (rule R100); its register operands are implied by the opcode (rule R103). -/

namespace Sys2Proof

inductive Instr where
  | nop                                  -- R241
  | fmul                                 -- R130 modular_multiplier_p255_19
  | fred                                 -- R131 field_reducer_p255_19
  | padd                                 -- R151 edwards_point_add
  | pdbl                                 -- R152 edwards_point_double
  | psmul                                -- R153 edwards_scalar_mult
  | sha256c (iv : Bool)                  -- R166 sha256_compress
  | sha512c (iv : Bool)                  -- R169 sha512_compress
  | ccqr (qa qb qc qd : BitVec 4)        -- R183 chacha20_quarterround
  | ccblk                                -- R185 chacha20_block
  | p13clamp                             -- R197 poly1305_clamp
  | p13acc                               -- R198 poly1305_accumulate
  | p13fin                               -- R199 poly1305_finalize
  | mlstep (sw : Bool)                   -- R211 montgomery_ladder_step
  | x25519                               -- R215 x25519_core
  | edsign                               -- R226 ed25519_sign_engine
  | zeroize                              -- R242
  deriving DecidableEq, Repr

end Sys2Proof
end

