-- ==== Sys2Proof/WellFormed.lean ====
section
/-! DEFINITION. What makes a command and a set of parameters legal, as Bool checks. -/

namespace Sys2Proof

/-- Rule R97: CCQR is legal on four pairwise distinct word indices only. Every other command is legal with every
value of its immediates. -/
def Instr.wf : Instr → Bool
  | .ccqr qa qb qc qd => qa != qb && qa != qc && qa != qd && qb != qc && qb != qd && qc != qd
  | .nop | .fmul | .fred | .padd | .pdbl | .psmul | .sha256c _ | .sha512c _ | .ccblk | .p13clamp | .p13acc
  | .p13fin | .mlstep _ | .x25519 | .edsign | .zeroize => true

/-- Rule R7: MEM_BYTES is a multiple of 4 with 1024 ≤ MEM_BYTES ≤ 65536. The choices of representatives carry no
check: every one of them meets REP255_OK and REP130_OK (rule R8). -/
def Config.legal (c : Config) : Bool :=
  c.memBytes % 4 == 0 && 1024 ≤ c.memBytes && c.memBytes ≤ 65536

end Sys2Proof
end

