-- ==== Sys2Proof/Decode.lean ====
section
/-! DEFINITION. `decode` (rule R98): total on all 2^32 words, rejecting by name; then `encode`, its inverse on the
legal words, written from the formats of rules R91 to R94. -/

namespace Sys2Proof

/-- Why a word is no command: an opcode outside rule R94 (rule R95), a non-zero must-be-zero field (rule R96), or a
CCQR with two equal indices (rule R97). -/
inductive DecodeError where
  | undefinedOpcode (op : Nat)
  | reservedBits
  | equalIndices
  deriving DecidableEq, Repr

/-- `w[hi:lo]` of rule R11: the integer `(w >> lo) mod 2^(hi - lo + 1)`. -/
def bitsOf (w : Word) (hi lo : Nat) : Nat := w.toNat / 2 ^ lo % 2 ^ (hi - lo + 1)

/-- Format Z (rule R91): bits 31:8 must be zero. -/
def decodeZ (w : Word) (i : Instr) : Except DecodeError Instr :=
  if bitsOf w 31 8 = 0 then .ok i else .error .reservedBits

/-- Format F (rule R92): bits 31:9 must be zero, bit 8 is the flag. -/
def decodeF (w : Word) (command : Bool → Instr) : Except DecodeError Instr :=
  if bitsOf w 31 9 = 0 then .ok (command (bitsOf w 8 8 == 1)) else .error .reservedBits

/-- Format Q (rules R93, R100): bits 31:24 must be zero and the four indices pairwise distinct (rule R97). -/
def decodeQ (w : Word) : Except DecodeError Instr :=
  let i := Instr.ccqr (.ofNat 4 (bitsOf w 11 8)) (.ofNat 4 (bitsOf w 15 12)) (.ofNat 4 (bitsOf w 19 16))
    (.ofNat 4 (bitsOf w 23 20))
  if bitsOf w 31 24 = 0 then (if i.wf then .ok i else .error .equalIndices) else .error .reservedBits

/-- Rule R98, with the opcode numbers of rule R94. -/
def decode (w : Word) : Except DecodeError Instr :=
  match bitsOf w 7 0 with
  | 0x00 => decodeZ w .nop
  | 0x01 => decodeZ w .fmul
  | 0x02 => decodeZ w .fred
  | 0x10 => decodeZ w .padd
  | 0x11 => decodeZ w .pdbl
  | 0x12 => decodeZ w .psmul
  | 0x20 => decodeF w .sha256c
  | 0x21 => decodeF w .sha512c
  | 0x30 => decodeQ w
  | 0x31 => decodeZ w .ccblk
  | 0x40 => decodeZ w .p13clamp
  | 0x41 => decodeZ w .p13acc
  | 0x42 => decodeZ w .p13fin
  | 0x50 => decodeF w .mlstep
  | 0x51 => decodeZ w .x25519
  | 0x60 => decodeZ w .edsign
  | 0xFF => decodeZ w .zeroize
  | op => .error (.undefinedOpcode op)

/-- The opcode of rule R94: bits 7:0 of the command word. -/
def opcodeOf : Instr → Nat
  | .nop => 0x00
  | .fmul => 0x01
  | .fred => 0x02
  | .padd => 0x10
  | .pdbl => 0x11
  | .psmul => 0x12
  | .sha256c _ => 0x20
  | .sha512c _ => 0x21
  | .ccqr _ _ _ _ => 0x30
  | .ccblk => 0x31
  | .p13clamp => 0x40
  | .p13acc => 0x41
  | .p13fin => 0x42
  | .mlstep _ => 0x50
  | .x25519 => 0x51
  | .edsign => 0x60
  | .zeroize => 0xFF

/-- The immediate fields of a command at their places in the word (rules R92, R93, R100). -/
def immediatesOf : Instr → Nat
  | .sha256c f | .sha512c f | .mlstep f => f.toNat * 2 ^ 8
  | .ccqr qa qb qc qd => qa.toNat * 2 ^ 8 + qb.toNat * 2 ^ 12 + qc.toNat * 2 ^ 16 + qd.toNat * 2 ^ 20
  | .nop | .fmul | .fred | .padd | .pdbl | .psmul | .ccblk | .p13clamp | .p13acc | .p13fin | .x25519 | .edsign
  | .zeroize => 0

/-- `Encode` of rule R98: the opcode and the immediates; every other bit of the word is zero. -/
def encode (i : Instr) : Word := .ofNat 32 (opcodeOf i + immediatesOf i)

/-- The command this decoder reads from an opcode-table word of `nbits` bits: the 32-bit command word (rule R90: one
length) whose bits from `nbits` up are zero. `none` where `decode` rejects it. -/
def decodeTableWord (nbits w : Nat) : Option Instr :=
  match decode (.ofNat 32 (w % 2 ^ nbits)) with
  | .ok i => some i
  | .error _ => none

end Sys2Proof
end

