-- ==== Sys2Proof/Machine/Bytes.lean ====
section
/-! DEFINITION. Byte strings and the integers they hold (rules R12, R13), and the word arrays of the operand layouts
(rules R66, R67). -/

namespace Sys2Proof.Machine

/-- `LE(bs)` of rule R13: element 0 is the least significant byte. -/
def LE : List Byte → Nat
  | [] => 0
  | b :: bs => b.toNat + 256 * LE bs

/-- `BE(bs)` of rule R13: element 0 is the most significant byte. -/
def BE (bs : List Byte) : Nat := LE bs.reverse

/-- `toLE(v, n)` of rule R13. Rule R13 asks for v < 256^n; bits of v from 8n up are dropped here (log entry
13). -/
def toLE (v : Nat) : Nat → List Byte
  | 0 => []
  | n + 1 => .ofNat 8 v :: toLE (v / 256) n

/-- `toBE(v, n)` of rule R13. -/
def toBE (v n : Nat) : List Byte := (toLE v n).reverse

/-- `zeros(n)` of rule R12. -/
def zeros (n : Nat) : List Byte := List.replicate n 0

/-- `bs[i..j]` of rule R12: the elements i up to but not including j. -/
def slice (bs : List Byte) (i j : Nat) : List Byte := (bs.drop i).take (j - i)

/-- The `n` little-endian 32-bit words of a byte string: word i is LE of bytes 4i … 4i+3 (rule R67). -/
def wordsLE (n : Nat) (bs : List Byte) : List Word :=
  (List.range n).map fun i => .ofNat 32 (LE (slice bs (4 * i) (4 * i + 4)))

/-- The `n` big-endian words of `w` bits (a whole number k of bytes) of a byte string: word i is BE of bytes ki …
ki+k-1 (rule R66). -/
def wordsBE (w n : Nat) (bs : List Byte) : List (BitVec w) :=
  (List.range n).map fun i => .ofNat w (BE (slice bs (w / 8 * i) (w / 8 * i + w / 8)))

/-- 32-bit words laid out little-endian, in index order (rule R67). -/
def bytesLE (ws : List Word) : List Byte := ws.flatMap fun w => toLE w.toNat 4

/-- Words of `w` bits laid out big-endian, in index order (rule R66). -/
def bytesBE (w : Nat) (ws : List (BitVec w)) : List Byte := ws.flatMap fun v => toBE v.toNat (w / 8)

end Sys2Proof.Machine
end

