-- ==== Sys2Proof/Machine/State.lean ====
section
/-! DEFINITION. The state of KCORE as plain data (rule R20), the events of its two agents (rules R70, R79, R290), the
reasons a step can stop, and the state after reset (rule R38). The operations on all of it are in the other files
of this folder. -/

namespace Sys2Proof.Machine

/-- MEM (rule R30): the bytes that are not zero, by address, addresses strictly rising. An address that is not listed
holds 0, which is the reset value the spec gives every byte (rule R38). -/
abbrev Memory := List Host.Cell

/-- The eight argument registers x[0] … x[7] (rule R21). -/
abbrev Regs := Vector Word 8

/-- The stored bits of STATUS (rule R27); its reserved bits read 0 and hold nothing. -/
structure Status where
  busy    : Bool
  done    : Bool
  err     : Bool
  herr    : Bool
  errcode : Byte
  deriving DecidableEq, Repr

/-- The widths of a MEM window access: n ∈ {1, 2, 4} bytes (rule R70). -/
inductive MemWidth where
  | w1
  | w2
  | w4
  deriving DecidableEq, Repr

/-- The value of a MEM window write, with its width: v < 256^n (rule R70). -/
inductive MemData where
  | b1 (v : BitVec 8)
  | b2 (v : BitVec 16)
  | b4 (v : BitVec 32)
  deriving DecidableEq, Repr

/-- The four operations of the host port (rule R70). -/
inductive HostOp where
  | read32 (off : Nat)
  | write32 (off : Nat) (v : Word)
  | memRead (a : Nat) (n : MemWidth)
  | memWrite (a : Nat) (v : MemData)
  deriving DecidableEq, Repr

/-- One event of the total order of rule R79, or of the reset input (rule R290): a host port operation, the reset
input asserted and released, or the engine's turn (its step of rule R262 if BUSY = 1, else nothing). -/
inductive Event where
  | host (op : HostOp)
  | reset
  | engine
  deriving DecidableEq, Repr

/-- The world outside the block (the model's own fields, log entry 4): the events still to come, in the order of rule
R79, and the values the host's reads have returned, oldest first. -/
structure Port where
  pending : List Event
  replies : List Word
  deriving DecidableEq, Repr

/-- The whole state. `x`, `irqEn` (CTRL bit 0), `status`, `mem` and `cur` are all the state the spec gives the block
(rule R20); ID, CFG and `irq` are functions of it. `cfg` holds the implementation's parameters, which no step
changes (rule R293, log entry 3), and `port` the world outside (log entry 4). -/
structure State where
  x      : Regs
  irqEn  : Bool
  status : Status
  mem    : Memory
  cur    : Word
  cfg    : Config
  port   : Port
  deriving DecidableEq, Repr

/-- No step of this block ends in a fault: every error of the spec is reported by STATUS and the machine goes on (rules
R250, R259), and the block never hangs (rule R263). The type has no constructor (log entry 11). -/
inductive Fault where
  deriving DecidableEq, Repr

/-- The reasons for a step without a meaning. -/
inductive Refusal where
  /-- Raised by `exec` for a command that has no meaning yet; safe. No arm of `exec` raises it. -/
  | notModelled (mnemonic : String)
  /-- Raised by `hostRead32` and `hostWrite32` for a register-space access outside the port's definition: an offset
  that is not a multiple of 4 (rule R71: "a model refuses it (gives it no meaning)"), or one above 0xFFFC, outside the
  domain of rule R70 (DEDUCED, log entry 10). Safe. -/
  | registerAccessOutsidePort (off : Nat)
  deriving DecidableEq, Repr

/-- Rule R38: the state after reset, with the default parameters (rules R7, R8; log entry 3) and nothing outside the
block pending (log entry 4). MEM lists nothing: every byte is 0. -/
def State.reset : State where
  x      := #v[0, 0, 0, 0, 0, 0, 0, 0]
  irqEn  := false
  status := { busy := false, done := false, err := false, herr := false, errcode := 0 }
  mem    := []
  cur    := 0
  cfg    := .default
  port   := { pending := [], replies := [] }

end Sys2Proof.Machine
end

