-- ==== Sys2Proof/Machine/Flags.lean ====
section
/-! DEFINITION. Every computation on STATUS and CTRL: the block has no other flags (rule R29). -/

namespace Sys2Proof.Machine

/-- The command errors of rule R251. -/
inductive CmdError where
  | illegalCmd
  | argRange
  | addrRange
  | invalidEncoding     -- reserved: raised by nothing in this block (rule R258)
  | invalidSignature    -- reserved: raised by nothing in this block (rule R258)
  | weakPublicKey
  | counterOverflow     -- reserved: raised by nothing in this block (rule R258)
  deriving DecidableEq, Repr

/-- The code of an error, the value ERRCODE takes (rule R251). -/
def CmdError.code : CmdError → Byte
  | .illegalCmd       => 0x01
  | .argRange         => 0x02
  | .addrRange        => 0x03
  | .invalidEncoding  => 0x10
  | .invalidSignature => 0x11
  | .weakPublicKey    => 0x12
  | .counterOverflow  => 0x13

/-- STATUS as the host reads it (rule R27): BUSY, DONE, ERR, HERR in bits 0 to 3, ERRCODE in bits 15:8, every other
bit 0. -/
def Status.toWord (st : Status) : Word :=
  .ofNat 32 (st.busy.toNat + st.done.toNat * 2 + st.err.toNat * 4 + st.herr.toNat * 8 + st.errcode.toNat * 2 ^ 8)

/-- CTRL as the host reads it (rule R26): IRQ_EN in bit 0; SRST and the reserved bits read 0. -/
def ctrlWord (irqEn : Bool) : Word := .ofNat 32 irqEn.toNat

/-- A host write of STATUS (rule R27): bits 1, 2, 3 of the value clear DONE, ERR with ERRCODE, and HERR. Clearing ERR
is the return from an error (rule R266). -/
def Status.writeOneToClear (st : Status) (v : Word) : Status where
  busy    := st.busy
  done    := st.done && !v.getLsbD 1
  err     := st.err && !v.getLsbD 2
  errcode := if v.getLsbD 2 then 0 else st.errcode
  herr    := st.herr && !v.getLsbD 3

/-- The acceptance of a command (rule R28). -/
def Status.accept (st : Status) : Status := { st with busy := true, done := false }

/-- A refused host access (rule R259): HERR, and nothing else. -/
def Status.refuseAccess (st : Status) : Status := { st with herr := true }

/-- The completion of a command (rule R262): BUSY falls, DONE rises, and an error sets ERR and ERRCODE. -/
def Status.complete (st : Status) : Option CmdError → Status
  | none => { st with busy := false, done := true }
  | some e => { st with busy := false, done := true, err := true, errcode := e.code }

/-- The interrupt output (rules R35, R260). -/
def State.irq (s : State) : Bool := s.irqEn && s.status.done

end Sys2Proof.Machine
end

