-- ==== Sys2Proof/Machine/Ops.lean ====
section
/-! DEFINITION. The operations over memory, registers and the command lifecycle that every command uses. -/

namespace Sys2Proof.Machine

/-! ### MEM (rules R15, R30) -/

/-- The byte at an address; an unlisted address holds the reset value 0 (rules R30, R38). -/
def Memory.byte : Memory → Nat → Byte
  | [], _ => 0#8
  | (k, v) :: rest, a => if k = a then v else Memory.byte rest a

/-- One byte written. The canonical form is kept: a zero byte is not listed. -/
def Memory.setByte : Memory → Nat → Byte → Memory
  | [], a, v => if v = 0#8 then [] else [(a, v)]
  | (k, w) :: rest, a, v =>
    if a < k then (if v = 0#8 then (k, w) :: rest else (a, v) :: (k, w) :: rest)
    else if a = k then (if v = 0#8 then rest else (a, v) :: rest)
    else (k, w) :: Memory.setByte rest a v

/-- `MemRead(addr, n)` of rule R15. -/
def Memory.read (m : Memory) (addr : Nat) : Nat → List Byte
  | 0 => []
  | n + 1 => m.byte addr :: Memory.read m (addr + 1) n

/-- `MemWrite(addr, n, bs)` of rule R15, n being the length of bs. -/
def Memory.write (m : Memory) (addr : Nat) : List Byte → Memory
  | [] => m
  | b :: bs => Memory.write (m.setByte addr b) (addr + 1) bs

/-- The canonical form: addresses strictly rising, no listed byte equal to what an unlisted address holds. -/
abbrev Memory.wf (m : Memory) : Prop :=
  m.Pairwise (fun c d => c.1 < d.1) ∧ ∀ c ∈ m, c.2 ≠ 0#8

/-- Every listed byte lies in MEM, whose addresses are 0 to MEM_BYTES - 1 (rule R30). -/
abbrev Memory.within (m : Memory) (memBytes : Nat) : Prop :=
  ∀ c ∈ m, c.1 < memBytes

/-- `MemRead` on the state's MEM. -/
def State.read (s : State) (addr n : Nat) : List Byte := s.mem.read addr n

/-! ### Registers (rules R14, R21) -/

/-- `x[i]` as an unsigned integer (rule R14). -/
def State.arg (s : State) (i : Fin 8) : Nat := s.x[i].toNat

/-! ### The command lifecycle (rules R16, R102, R262) -/

/-- What `Exec(w, x, MEM)` returns (rule R102): the new x, the new MEM, and `Ok` (none) or `Err(code)`. -/
structure Effect where
  x   : Regs
  mem : Memory
  err : Option CmdError
  deriving DecidableEq, Repr

/-- `raise` of rule R16: the error, with nothing written (rule R264). -/
def State.raise (s : State) (e : CmdError) : Effect := ⟨s.x, s.mem, some e⟩

/-- An `Ok` end that writes one region (phase 6 of rule R102). -/
def State.store (s : State) (addr : Nat) (bs : List Byte) : Effect := ⟨s.x, s.mem.write addr bs, none⟩

/-- The engine's completion (rule R262), with or without an error. This is the block's only "trap entry": an error
saves its code in ERRCODE and sets ERR; control goes nowhere (rule R250). -/
def complete (s : State) (e : Effect) : State :=
  { s with x := e.x, mem := e.mem, cur := 0, status := s.status.complete e.err }

/-- The return from an error (rule R266): the host's write of 1 to STATUS.ERR. Nothing is restored. -/
def clearError (s : State) : State := { s with status := s.status.writeOneToClear 0x00000004 }

/-- The completion of a word that is no command (rule R252): ILLEGAL_CMD, nothing read or written. -/
def completeIllegal (s : State) : State := complete s (s.raise .illegalCmd)

/-- The command the engine is to run: the word in the latch CUR (rules R31, R102 phase 1). -/
def latchedCommand (s : State) : Except DecodeError Instr := decode s.cur

end Sys2Proof.Machine
end

