-- ==== Sys2Proof/Machine/Operands.lean ====
section
/-! DEFINITION. How a command reaches its operands: the operand table (rule R103), the range check (rule R104), the
execution template (rule R102), and the readers of the fixed layouts (rules R64 to R69). The one addressing mode is
register direct (rule R106). -/

namespace Sys2Proof.Machine

/-- How a command uses an operand region (rule R103). -/
inductive Access where
  | input
  | output
  | inout
  deriving DecidableEq, Repr

/-- An operand region: `len` bytes of MEM from `addr` on. -/
structure Region where
  access : Access
  addr   : Nat
  len    : Nat
  deriving DecidableEq, Repr

/-- Rule R103: the operand regions of a command, in the order x[0], x[1], x[2], at the addresses the registers hold.
With iv = 1 the state region of SHA256C and SHA512C is written but not read. -/
def operands (i : Instr) (s : State) : List Region :=
  match i with
  | .nop | .zeroize => []
  | .fmul => [⟨.output, s.arg 0, 32⟩, ⟨.input, s.arg 1, 32⟩, ⟨.input, s.arg 2, 32⟩]
  | .fred => [⟨.output, s.arg 0, 32⟩, ⟨.input, s.arg 1, 32⟩]
  | .padd => [⟨.output, s.arg 0, 128⟩, ⟨.input, s.arg 1, 128⟩, ⟨.input, s.arg 2, 128⟩]
  | .pdbl => [⟨.output, s.arg 0, 128⟩, ⟨.input, s.arg 1, 128⟩]
  | .psmul => [⟨.output, s.arg 0, 128⟩, ⟨.input, s.arg 1, 32⟩, ⟨.input, s.arg 2, 128⟩]
  | .sha256c iv => [⟨if iv then .output else .inout, s.arg 0, 32⟩, ⟨.input, s.arg 1, 64⟩]
  | .sha512c iv => [⟨if iv then .output else .inout, s.arg 0, 64⟩, ⟨.input, s.arg 1, 128⟩]
  | .ccqr _ _ _ _ => [⟨.inout, s.arg 0, 64⟩]
  | .ccblk => [⟨.output, s.arg 0, 64⟩, ⟨.input, s.arg 1, 32⟩, ⟨.input, s.arg 2, 12⟩]
  | .p13clamp => [⟨.output, s.arg 0, 16⟩, ⟨.input, s.arg 1, 16⟩]
  | .p13acc => [⟨.inout, s.arg 0, 17⟩, ⟨.input, s.arg 1, 16⟩, ⟨.input, s.arg 2, s.arg 3⟩]
  | .p13fin => [⟨.output, s.arg 0, 16⟩, ⟨.input, s.arg 1, 17⟩, ⟨.input, s.arg 2, 16⟩]
  | .mlstep _ => [⟨.inout, s.arg 0, 160⟩]
  | .x25519 => [⟨.output, s.arg 0, 32⟩, ⟨.input, s.arg 1, 32⟩, ⟨.input, s.arg 2, 32⟩]
  | .edsign => [⟨.output, s.arg 0, 64⟩, ⟨.input, s.arg 1, 32⟩, ⟨.input, s.arg 2, s.arg 3⟩]

/-- The value check of rule R103 (phase 2 of rule R102): only P13ACC has one, 1 ≤ x[3] ≤ 16 (rule R253). -/
def valueOk (i : Instr) (s : State) : Bool :=
  match i with
  | .p13acc => 1 ≤ s.arg 3 && s.arg 3 ≤ 16
  | .nop | .fmul | .fred | .padd | .pdbl | .psmul | .sha256c _ | .sha512c _ | .ccqr _ _ _ _ | .ccblk | .p13clamp
  | .p13fin | .mlstep _ | .x25519 | .edsign | .zeroize => true

/-- `Chk(addr, n)` of rule R104, on unbounded integers: no wrap-around. -/
def inRange (memBytes addr n : Nat) : Bool := addr + n ≤ memBytes

/-- Phase 3 of rule R102: every operand region lies inside MEM. -/
def operandsOk (i : Instr) (s : State) : Bool :=
  (operands i s).all fun r => inRange s.cfg.memBytes r.addr r.len

/-- The template of rule R102 from phase 2 on, committed by rule R262: the value check, then the range checks, then the
command's own reads, computation and writes (`body`). Phase 1, decoding, has already given the command. -/
def runCommand (i : Instr) (s : State) (body : State → Effect) : Host.Outcome State Fault Refusal :=
  .next (complete s
    (if !valueOk i s then s.raise .argRange
     else if !operandsOk i s then s.raise .addrRange
     else body s))

/-- The integer of a little-endian operand of `n` bytes (rules R62, R64, R68). -/
def State.readLE (s : State) (addr n : Nat) : Nat := LE (s.read addr n)

end Sys2Proof.Machine
end

