-- ==== Sys2Proof/Machine/ChaCha20.lean ====
section
/-! DEFINITION. ChaCha20 (rules R180 to R185) and the commands CCQR and CCBLK. A state is the list of its sixteen words
(rule R67). -/

namespace Sys2Proof.Machine

/-- Rule R180, the quarter-round on four words. -/
def qr (a b c d : Word) : Word × Word × Word × Word :=
  let a := a + b
  let d := (d ^^^ a).rotateLeft 16
  let c := c + d
  let b := (b ^^^ c).rotateLeft 12
  let a := a + b
  let d := (d ^^^ a).rotateLeft 8
  let c := c + d
  let b := (b ^^^ c).rotateLeft 7
  (a, b, c, d)

/-- Rule R180, the quarter-round on four words of a state; the other twelve stay. -/
def QR (s : List Word) (i j k l : Nat) : List Word :=
  let r := qr (s.getD i 0) (s.getD j 0) (s.getD k 0) (s.getD l 0)
  (((s.set i r.1).set j r.2.1).set k r.2.2.1).set l r.2.2.2

/-- Rule R181: "expand 32-byte k" as four little-endian words. -/
def chachaConstants : List Word := [0x61707865, 0x3320646e, 0x79622d32, 0x6b206574]

/-- Rule R182, for key words k, counter and nonce words n. -/
def chachaInit (k : List Word) (ctr : Word) (n : List Word) : List Word := chachaConstants ++ k ++ [ctr] ++ n

/-- A column round, then a diagonal round (rule R184). -/
def doubleRound (s : List Word) : List Word :=
  let s := QR (QR (QR (QR s 0 4 8 12) 1 5 9 13) 2 6 10 14) 3 7 11 15
  QR (QR (QR (QR s 0 5 10 15) 1 6 11 12) 2 7 8 13) 3 4 9 14

/-- `n` double-rounds. -/
def doubleRounds : Nat → List Word → List Word
  | 0, s => s
  | n + 1, s => doubleRounds n (doubleRound s)

/-- Rule R184: ten double-rounds, then the initial state added. -/
def chacha20block (k : List Word) (ctr : Word) (n : List Word) : List Byte :=
  let s0 := chachaInit k ctr n
  bytesLE (List.zipWith (· + ·) (doubleRounds 10 s0) s0)

/-- The effect of CCQR inside its ranges (rule R183). -/
def ccqrEffect (qa qb qc qd : BitVec 4) (s : State) : Effect :=
  s.store (s.arg 0)
    (bytesLE (QR (wordsLE 16 (s.read (s.arg 0) 64)) qa.toNat qb.toNat qc.toNat qd.toNat))

/-- CCQR (rule R183): its effect under the execution template (rule R102). -/
def execCcqr (qa qb qc qd : BitVec 4) (s : State) : Host.Outcome State Fault Refusal :=
  runCommand (.ccqr qa qb qc qd) s (ccqrEffect qa qb qc qd)

/-- The effect of CCBLK inside its ranges (rule R185): the counter is x[3], a value. -/
def ccblkEffect (s : State) : Effect :=
  let k := wordsLE 8 (s.read (s.arg 1) 32)
  let n := wordsLE 3 (s.read (s.arg 2) 12)
  s.store (s.arg 0) (chacha20block k s.x[3] n)

/-- CCBLK (rule R185): its effect under the execution template (rule R102). -/
def execCcblk (s : State) : Host.Outcome State Fault Refusal :=
  runCommand .ccblk s ccblkEffect

end Sys2Proof.Machine
end

