-- ==== Sys2Proof/Machine/Field.lean ====
section
/-! DEFINITION. Field arithmetic mod 2^255 - 19 (rules R120 to R128) and the commands FMUL and FRED. An element of
GF(p) is the natural number v with 0 ≤ v < p (rule R18). The sequence of datapath operations (rules R126, R129) is an
obligation on the implementation and has no model content. -/

namespace Sys2Proof.Machine

/-- p = 2^255 - 19 (rule R120). -/
def p : Nat := 2 ^ 255 - 19

/-- The element a 32-byte container denotes (rule R120). -/
def fdec (c : Nat) : Nat := c % p

/-- Rule R121. -/
def fadd (a b : Nat) : Nat := (a + b) % p

/-- Rule R122: the least non-negative residue of a - b (an argument from p up: log entry 13). -/
def fsub (a b : Nat) : Nat := (a + (p - b % p)) % p

/-- Rule R123: the exact product, reduced. -/
def fmul (a b : Nat) : Nat := (a * b) % p

/-- Rule R123. -/
def fsq (a : Nat) : Nat := fmul a a

/-- Rule R124. -/
def fneg (a : Nat) : Nat := (p - a % p) % p

/-- Square and multiply over the `k` low bits of `e`, most significant first, from `acc`. -/
def fpowFrom (a e : Nat) : Nat → Nat → Nat
  | 0, acc => acc
  | k + 1, acc => fpowFrom a e k (if e.testBit k then fmul (fsq acc) a else fsq acc)

/-- Rule R125: a^(p-2) mod p by one fixed sequence of squarings and multiplications over the 255 bits of the public
exponent p - 2 (log entry 14); `finv 0 = 0`. -/
def finv (a : Nat) : Nat := fpowFrom a (p - 2) 255 1

/-- Rule R126. -/
def fsel (c : Bool) (a b : Nat) : Nat := if c then a else b

/-- Rule R126. -/
def fcswap (c : Bool) (a b : Nat) : Nat × Nat := if c then (b, a) else (a, b)

/-- REP255 (rule R8): the representative stored for a residue. `(2^256 - 1 - v) / p + 1` is the number of containers
v, v + p, … below 2^256, so every function with REP255_OK is one of these. -/
def rep255 (c : Config) (v : Nat) : Nat :=
  match c.rep255 with
  | .canonical => v
  | .other k => v + p * (Config.freeRep255 k v % ((2 ^ 256 - 1 - v) / p + 1))

/-- A field element read from its 32-byte region (rule R64): any container is accepted and reduced. -/
def State.readField (s : State) (addr : Nat) : Nat := fdec (s.readLE addr 32)

/-- The 32 bytes of a field element left in intermediate form (rules R64, R127). -/
def State.fieldBytes (s : State) (v : Nat) : List Byte := toLE (rep255 s.cfg v) 32

/-- The effect of FMUL inside its ranges (rule R130). -/
def fmulEffect (s : State) : Effect :=
  s.store (s.arg 0) (s.fieldBytes (fmul (s.readField (s.arg 1)) (s.readField (s.arg 2))))

/-- FMUL (rule R130): its effect under the execution template (rule R102). -/
def execFmul (s : State) : Host.Outcome State Fault Refusal :=
  runCommand .fmul s fmulEffect

/-- The effect of FRED inside its ranges (rule R131): the canonical representative, whatever REP255 is. -/
def fredEffect (s : State) : Effect :=
  s.store (s.arg 0) (toLE (s.readLE (s.arg 1) 32 % p) 32)

/-- FRED (rule R131): its effect under the execution template (rule R102). -/
def execFred (s : State) : Host.Outcome State Fault Refusal :=
  runCommand .fred s fredEffect

end Sys2Proof.Machine
end

