-- ==== Sys2Proof/Machine/Edwards.lean ====
section
/-! DEFINITION. Edwards25519 group arithmetic (rules R140 to R150) and the commands PADD, PDBL and PSMUL. Nothing here
validates a point: the functions are total on all tuples (rule R147). -/

namespace Sys2Proof.Machine

/-- A point in extended coordinates, x = X/Z, y = Y/Z, X·Y = Z·T (rule R141). -/
structure Point where
  X : Nat
  Y : Nat
  Z : Nat
  T : Nat
  deriving DecidableEq, Repr

/-- The neutral element as this block produces it (rule R141). -/
def neutral : Point := ⟨0, 1, 1, 0⟩

/-- The curve constant d of -x² + y² = 1 + d·x²·y² (rules R140, R142). -/
def curveD : Nat := 0x52036CEE2B6FFE738CC740797779E89800700A4D4141D8AB75EB4DCA135978A3

/-- d2 = 2·d mod p (rule R142). -/
def curveD2 : Nat := 0x2406D9DC56DFFCE7198E80F2EEF3D13000E0149A8283B156EBD69B9426B2F159

/-- The base point B (rule R143). -/
def basePoint : Point where
  X := 0x216936D3CD6E53FEC0A4E231FDD6DC5C692CC7609525A7B2C9562D608F25D51A
  Y := 0x6666666666666666666666666666666666666666666666666666666666666658
  Z := 1
  T := 0x67875F0FD78B766566EA4E8E64ABE37D20F09F80775152F56DDE8AB3A5B7DDA3

/-- The order L of the base point (rule R144). -/
def groupOrder : Nat := 2 ^ 252 + 27742317777372353535851937790883648493

/-- Rule R145, the unified addition. -/
def padd (P Q : Point) : Point :=
  let A := fmul (fsub P.Y P.X) (fsub Q.Y Q.X)
  let B := fmul (fadd P.Y P.X) (fadd Q.Y Q.X)
  let C := fmul (fmul P.T curveD2) Q.T
  let D := fmul (fadd P.Z P.Z) Q.Z
  let E := fsub B A
  let F := fsub D C
  let G := fadd D C
  let H := fadd B A
  ⟨fmul E F, fmul G H, fmul F G, fmul E H⟩

/-- Rule R146; T is not used. -/
def pdbl (P : Point) : Point :=
  let A := fsq P.X
  let B := fsq P.Y
  let C := fadd (fsq P.Z) (fsq P.Z)
  let H := fadd A B
  let E := fsub H (fsq (fadd P.X P.Y))
  let G := fsub A B
  let F := fadd C G
  ⟨fmul E F, fmul G H, fmul F G, fmul E H⟩

/-- The selection of rule R148, coordinate by coordinate: P where the bit is 1, else the neutral element. -/
def psel (bit : Bool) (P : Point) : Point :=
  ⟨fsel bit P.X 0, fsel bit P.Y 1, fsel bit P.Z 1, fsel bit P.T 0⟩

/-- The loop of rule R148 over bits k-1 down to 0 of s. -/
def psmulFrom (s : Nat) (P : Point) : Nat → Point → Point
  | 0, Q => Q
  | k + 1, Q => psmulFrom s P k (padd (pdbl Q) (psel (s.testBit k) P))

/-- Rule R148: 256 doublings and 256 additions for every s and P. -/
def psmul (s : Nat) (P : Point) : Point := psmulFrom s P 256 neutral

/-- Rule R150: the 32-byte encoding, y with the lowest bit of x in bit 255. -/
def penc (P : Point) : List Byte :=
  let zi := finv P.Z
  let x := fmul P.X zi
  let y := fmul P.Y zi
  toLE (y + 2 ^ 255 * (x % 2)) 32

/-- A point read from its 128-byte region (rule R65). -/
def State.readPoint (s : State) (addr : Nat) : Point :=
  ⟨s.readField addr, s.readField (addr + 32), s.readField (addr + 64), s.readField (addr + 96)⟩

/-- The 128 bytes of a point left in intermediate form (rules R65, R151). -/
def State.pointBytes (s : State) (P : Point) : List Byte :=
  s.fieldBytes P.X ++ s.fieldBytes P.Y ++ s.fieldBytes P.Z ++ s.fieldBytes P.T

/-- The effect of PADD inside its ranges (rule R151). -/
def paddEffect (s : State) : Effect :=
  s.store (s.arg 0) (s.pointBytes (padd (s.readPoint (s.arg 1)) (s.readPoint (s.arg 2))))

/-- PADD (rule R151): its effect under the execution template (rule R102). -/
def execPadd (s : State) : Host.Outcome State Fault Refusal :=
  runCommand .padd s paddEffect

/-- The effect of PDBL inside its ranges (rule R152). -/
def pdblEffect (s : State) : Effect :=
  s.store (s.arg 0) (s.pointBytes (pdbl (s.readPoint (s.arg 1))))

/-- PDBL (rule R152): its effect under the execution template (rule R102). -/
def execPdbl (s : State) : Host.Outcome State Fault Refusal :=
  runCommand .pdbl s pdblEffect

/-- The effect of PSMUL inside its ranges (rule R153): the scalar is used as it stands, all 256 bits. -/
def psmulEffect (s : State) : Effect :=
  s.store (s.arg 0) (s.pointBytes (psmul (s.readLE (s.arg 1) 32) (s.readPoint (s.arg 2))))

/-- PSMUL (rule R153): its effect under the execution template (rule R102). -/
def execPsmul (s : State) : Host.Outcome State Fault Refusal :=
  runCommand .psmul s psmulEffect

end Sys2Proof.Machine
end

