-- ==== Sys2Proof/Machine/Sha2.lean ====
section
/-! DEFINITION. SHA-2 compression (rules R160 to R170) and the commands SHA256C and SHA512C. Rule R168 gives SHA-512 as
SHA-256 with other words, functions, constants and round count, so both are one definition over `Sha2`. -/

namespace Sys2Proof.Machine

/-- What tells SHA-256 from SHA-512 (rules R160, R161, R164, R165): the four sigma functions and the round constants,
one constant per round. -/
structure Sha2 (w : Nat) where
  BS0 : BitVec w → BitVec w
  BS1 : BitVec w → BitVec w
  SS0 : BitVec w → BitVec w
  SS1 : BitVec w → BitVec w
  K   : List (BitVec w)

/-- The eight words H0 … H7 of a hash state, or a … h of a round (rules R66, R163). -/
structure HashState (w : Nat) where
  a : BitVec w
  b : BitVec w
  c : BitVec w
  d : BitVec w
  e : BitVec w
  f : BitVec w
  g : BitVec w
  h : BitVec w
  deriving DecidableEq, Repr

/-- Rule R160. -/
def Ch {w : Nat} (x y z : BitVec w) : BitVec w := (x &&& y) ^^^ (~~~x &&& z)

/-- Rule R160. -/
def Maj {w : Nat} (x y z : BitVec w) : BitVec w := (x &&& y) ^^^ (x &&& z) ^^^ (y &&& z)

/-- The message schedule of rule R163, `n` words on from the words already there. -/
def Sha2.extend {w : Nat} (S : Sha2 w) : Nat → List (BitVec w) → List (BitVec w)
  | 0, W => W
  | n + 1, W =>
    let t := W.length
    S.extend n (W ++ [(S.SS1 (W.getD (t - 2) 0) + W.getD (t - 7) 0) + (S.SS0 (W.getD (t - 15) 0) + W.getD (t - 16) 0)])

/-- One round of rule R163, with the round's constant and schedule word. -/
def Sha2.round {w : Nat} (S : Sha2 w) (v : HashState w) (kw : BitVec w × BitVec w) : HashState w :=
  let T1 := v.h + S.BS1 v.e + Ch v.e v.f v.g + kw.1 + kw.2
  let T2 := S.BS0 v.a + Maj v.a v.b v.c
  ⟨T1 + T2, v.a, v.b, v.c, v.d + T1, v.e, v.f, v.g⟩

/-- Word by word addition (the last line of rule R163). -/
def HashState.add {w : Nat} (H v : HashState w) : HashState w :=
  ⟨H.a + v.a, H.b + v.b, H.c + v.c, H.d + v.d, H.e + v.e, H.f + v.f, H.g + v.g, H.h + v.h⟩

/-- Rules R163 and R168: as many rounds as there are round constants, over the sixteen words M of the block. -/
def Sha2.compress {w : Nat} (S : Sha2 w) (H : HashState w) (M : List (BitVec w)) : HashState w :=
  H.add ((S.K.zip (S.extend (S.K.length - 16) M)).foldl S.round H)

/-- The words H0 … H7 in order. -/
def HashState.words {w : Nat} (H : HashState w) : List (BitVec w) := [H.a, H.b, H.c, H.d, H.e, H.f, H.g, H.h]

/-- A hash state from its eight words in order. -/
def HashState.ofWords {w : Nat} (l : List (BitVec w)) : HashState w :=
  ⟨l.getD 0 0, l.getD 1 0, l.getD 2 0, l.getD 3 0, l.getD 4 0, l.getD 5 0, l.getD 6 0, l.getD 7 0⟩

/-- The words of a table of constants that is written row by row, each row one number of `n` words of `w` bits, the
first word of the row in its highest bits. -/
def tableWords (w n : Nat) (rows : List Nat) : List (BitVec w) :=
  rows.flatMap fun row => ((List.range n).map fun k => BitVec.ofNat w (row >>> (w * k))).reverse

/-- The sixteen rows of rule R161: four round constants of SHA-256 each. -/
def K256 : List Word :=
  tableWords 32 4
    ([0x428a2f9871374491b5c0fbcfe9b5dba5, 0x3956c25b59f111f1923f82a4ab1c5ed5,
     0xd807aa9812835b01243185be550c7dc3, 0x72be5d7480deb1fe9bdc06a7c19bf174,
     0xe49b69c1efbe47860fc19dc6240ca1cc, 0x2de92c6f4a7484aa5cb0a9dc76f988da,
     0x983e5152a831c66db00327c8bf597fc7, 0xc6e00bf3d5a7914706ca635114292967] ++
    [0x27b70a852e1b21384d2c6dfc53380d13, 0x650a7354766a0abb81c2c92e92722c85,
     0xa2bfe8a1a81a664bc24b8b70c76c51a3, 0xd192e819d6990624f40e3585106aa070,
     0x19a4c1161e376c082748774c34b0bcb5, 0x391c0cb34ed8aa4a5b9cca4f682e6ff3,
     0x748f82ee78a5636f84c878148cc70208, 0x90befffaa4506cebbef9a3f7c67178f2])

/-- The forty rows of rule R165: two round constants of SHA-512 each. -/
def K512 : List DWord :=
  tableWords 64 2
    ([0x428a2f98d728ae227137449123ef65cd, 0xb5c0fbcfec4d3b2fe9b5dba58189dbbc,
     0x3956c25bf348b53859f111f1b605d019, 0x923f82a4af194f9bab1c5ed5da6d8118,
     0xd807aa98a303024212835b0145706fbe, 0x243185be4ee4b28c550c7dc3d5ffb4e2,
     0x72be5d74f27b896f80deb1fe3b1696b1, 0x9bdc06a725c71235c19bf174cf692694] ++
    [0xe49b69c19ef14ad2efbe4786384f25e3, 0x0fc19dc68b8cd5b5240ca1cc77ac9c65,
     0x2de92c6f592b02754a7484aa6ea6e483, 0x5cb0a9dcbd41fbd476f988da831153b5,
     0x983e5152ee66dfaba831c66d2db43210, 0xb00327c898fb213fbf597fc7beef0ee4,
     0xc6e00bf33da88fc2d5a79147930aa725, 0x06ca6351e003826f142929670a0e6e70] ++
    [0x27b70a8546d22ffc2e1b21385c26c926, 0x4d2c6dfc5ac42aed53380d139d95b3df,
     0x650a73548baf63de766a0abb3c77b2a8, 0x81c2c92e47edaee692722c851482353b,
     0xa2bfe8a14cf10364a81a664bbc423001, 0xc24b8b70d0f89791c76c51a30654be30,
     0xd192e819d6ef5218d69906245565a910, 0xf40e35855771202a106aa07032bbd1b8] ++
    [0x19a4c116b8d2d0c81e376c085141ab53, 0x2748774cdf8eeb9934b0bcb5e19b48a8,
     0x391c0cb3c5c95a634ed8aa4ae3418acb, 0x5b9cca4f7763e373682e6ff3d6b2b8a3,
     0x748f82ee5defb2fc78a5636f43172f60, 0x84c87814a1f0ab728cc702081a6439ec,
     0x90befffa23631e28a4506cebde82bde9, 0xbef9a3f7b2c67915c67178f2e372532b] ++
    [0xca273eceea26619cd186b8c721c0c207, 0xeada7dd6cde0eb1ef57d4f7fee6ed178,
     0x06f067aa72176fba0a637dc5a2c898a6, 0x113f9804bef90dae1b710b35131c471b,
     0x28db77f523047d8432caab7b40c72493, 0x3c9ebe0a15c9bebc431d67c49c100d4c,
     0x4cc5d4becb3e42b6597f299cfc657e2a, 0x5fcb6fab3ad6faec6c44198c4a475817])

/-- SHA-256 (rules R160, R161). -/
def sha256 : Sha2 32 where
  BS0 x := x.rotateRight 2 ^^^ x.rotateRight 13 ^^^ x.rotateRight 22
  BS1 x := x.rotateRight 6 ^^^ x.rotateRight 11 ^^^ x.rotateRight 25
  SS0 x := x.rotateRight 7 ^^^ x.rotateRight 18 ^^^ x >>> 3
  SS1 x := x.rotateRight 17 ^^^ x.rotateRight 19 ^^^ x >>> 10
  K := K256

/-- SHA-512 (rules R164, R165). -/
def sha512 : Sha2 64 where
  BS0 x := x.rotateRight 28 ^^^ x.rotateRight 34 ^^^ x.rotateRight 39
  BS1 x := x.rotateRight 14 ^^^ x.rotateRight 18 ^^^ x.rotateRight 41
  SS0 x := x.rotateRight 1 ^^^ x.rotateRight 8 ^^^ x >>> 7
  SS1 x := x.rotateRight 19 ^^^ x.rotateRight 61 ^^^ x >>> 6
  K := K512

/-- The SHA-256 initial value (rule R162). -/
def IV256 : HashState 32 :=
  ⟨0x6a09e667, 0xbb67ae85, 0x3c6ef372, 0xa54ff53a, 0x510e527f, 0x9b05688c, 0x1f83d9ab, 0x5be0cd19⟩

/-- The SHA-512 initial value (rule R167). -/
def IV512 : HashState 64 :=
  ⟨0x6a09e667f3bcc908, 0xbb67ae8584caa73b, 0x3c6ef372fe94f82b, 0xa54ff53a5f1d36f1,
   0x510e527fade682d1, 0x9b05688c2b3e6c1f, 0x1f83d9abfb41bd6b, 0x5be0cd19137e2179⟩

/-- Rule R163. -/
def sha256compress (H : HashState 32) (M : List Word) : HashState 32 := sha256.compress H M

/-- Rule R168. -/
def sha512compress (H : HashState 64) (M : List DWord) : HashState 64 := sha512.compress H M

/-- The least k with (n + 1 + k) mod 128 = 112 (rule R170). -/
def sha512ZeroBytes (n : Nat) : Nat := (239 - n % 128) % 128

/-- The padded message of rule R170. -/
def sha512Padded (msg : List Byte) : List Byte :=
  msg ++ [0x80] ++ zeros (sha512ZeroBytes msg.length) ++ toBE (8 * msg.length) 16

/-- The compression of the first `n` 128-byte blocks of a byte string, in order (rule R170). -/
def sha512Blocks : Nat → List Byte → HashState 64 → HashState 64
  | 0, _, H => H
  | n + 1, m, H => sha512Blocks n (m.drop 128) (sha512compress H (wordsBE 64 16 (m.take 128)))

/-- `SHA512(msg)` of rule R170. -/
def SHA512 (msg : List Byte) : List Byte :=
  let m := sha512Padded msg
  bytesBE 64 (sha512Blocks (m.length / 128) m IV512).words

/-- The effect of SHA256C inside its ranges (rule R166). -/
def sha256cEffect (iv : Bool) (s : State) : Effect :=
  let H := if iv then IV256 else .ofWords (wordsBE 32 8 (s.read (s.arg 0) 32))
  let M := wordsBE 32 16 (s.read (s.arg 1) 64)
  s.store (s.arg 0) (bytesBE 32 (sha256compress H M).words)

/-- SHA256C (rule R166): its effect under the execution template (rule R102). -/
def execSha256c (iv : Bool) (s : State) : Host.Outcome State Fault Refusal :=
  runCommand (.sha256c iv) s (sha256cEffect iv)

/-- The effect of SHA512C inside its ranges (rule R169). -/
def sha512cEffect (iv : Bool) (s : State) : Effect :=
  let H := if iv then IV512 else .ofWords (wordsBE 64 8 (s.read (s.arg 0) 64))
  let M := wordsBE 64 16 (s.read (s.arg 1) 128)
  s.store (s.arg 0) (bytesBE 64 (sha512compress H M).words)

/-- SHA512C (rule R169): its effect under the execution template (rule R102). -/
def execSha512c (iv : Bool) (s : State) : Host.Outcome State Fault Refusal :=
  runCommand (.sha512c iv) s (sha512cEffect iv)

end Sys2Proof.Machine
end

