-- ==== Sys2Proof/Machine/X25519.lean ====
section
/-! DEFINITION. The Montgomery ladder (rules R210 to R216) and the commands MLSTEP and X25519. -/

namespace Sys2Proof.Machine

/-- The ladder constant (rule R210). -/
def a24 : Nat := 121665

/-- The four running elements of the ladder (rule R212). -/
structure Ladder where
  x2 : Nat
  z2 : Nat
  x3 : Nat
  z3 : Nat
  deriving DecidableEq, Repr

/-- The conditional swap of (x2, x3) and (z2, z3) (rules R126, R212). -/
def Ladder.cswap (sw : Bool) (l : Ladder) : Ladder :=
  let x := fcswap sw l.x2 l.x3
  let z := fcswap sw l.z2 l.z3
  ⟨x.1, z.1, x.2, z.2⟩

/-- Rule R212. -/
def ladderstep (sw : Bool) (x1 : Nat) (l : Ladder) : Ladder :=
  let l := l.cswap sw
  let A := fadd l.x2 l.z2
  let AA := fsq A
  let B := fsub l.x2 l.z2
  let BB := fsq B
  let E := fsub AA BB
  let C := fadd l.x3 l.z3
  let D := fsub l.x3 l.z3
  let DA := fmul D A
  let CB := fmul C B
  { x3 := fsq (fadd DA CB)
    z3 := fmul x1 (fsq (fsub DA CB))
    x2 := fmul AA BB
    z2 := fmul E (fadd AA (fmul a24 E)) }

/-- Rule R213: bits 0, 1, 2 and 255 cleared, bit 254 set. -/
def clamp (s : Nat) : Nat := (s &&& (2 ^ 254 - 8)) ||| 2 ^ 254

/-- Rule R214: bit 255 of the u-coordinate is ignored, the rest reduced. -/
def udec (bs : List Byte) : Nat := LE bs % 2 ^ 255 % p

/-- The loop of rule R216 over bits t-1 down to 0 of k; `prev` is the bit of the iteration before. Returns the last
`prev` with the ladder. -/
def ladderFrom (k x1 : Nat) : Nat → Bool → Ladder → Bool × Ladder
  | 0, prev, l => (prev, l)
  | t + 1, prev, l => ladderFrom k x1 t (k.testBit t) (ladderstep (prev ^^ k.testBit t) x1 l)

/-- Rule R216: 255 iterations, the final swap, x2 / z2 in canonical form. -/
def x25519 (sbytes ubytes : List Byte) : List Byte :=
  let k := clamp (LE sbytes)
  let x1 := udec ubytes
  let r := ladderFrom k x1 255 false ⟨1, 0, x1, 1⟩
  let l := r.2.cswap r.1
  toLE (fmul l.x2 (finv l.z2)) 32

/-- The five elements of the ladder record (rule R69): x1 at the start, then the running four. -/
def State.readLadder (s : State) (addr : Nat) : Ladder :=
  ⟨s.readField (addr + 32), s.readField (addr + 64), s.readField (addr + 96), s.readField (addr + 128)⟩

/-- The last 128 bytes of a ladder record, its running four elements in intermediate form (rules R69, R211). -/
def State.ladderBytes (s : State) (l : Ladder) : List Byte :=
  s.fieldBytes l.x2 ++ s.fieldBytes l.z2 ++ s.fieldBytes l.x3 ++ s.fieldBytes l.z3

/-- The effect of MLSTEP inside its ranges (rule R211): the 32 bytes of x1 are read and not written. -/
def mlstepEffect (sw : Bool) (s : State) : Effect :=
  s.store (s.arg 0 + 32) (s.ladderBytes (ladderstep sw (s.readField (s.arg 0)) (s.readLadder (s.arg 0))))

/-- MLSTEP (rule R211): its effect under the execution template (rule R102). -/
def execMlstep (sw : Bool) (s : State) : Host.Outcome State Fault Refusal :=
  runCommand (.mlstep sw) s (mlstepEffect sw)

/-- The end of X25519 (rule R215): the output is written in every case; an all-zero one raises WEAK_PUBLIC_KEY with the
write kept (rule R255). -/
def State.storeSharedSecret (s : State) (addr : Nat) (out : List Byte) : Effect :=
  { s.store addr out with err := if out = zeros 32 then some .weakPublicKey else none }

/-- The effect of X25519 inside its ranges (rule R215). -/
def x25519Effect (s : State) : Effect :=
  s.storeSharedSecret (s.arg 0) (x25519 (s.read (s.arg 1) 32) (s.read (s.arg 2) 32))

/-- X25519 (rule R215): its effect under the execution template (rule R102). -/
def execX25519 (s : State) : Host.Outcome State Fault Refusal :=
  runCommand .x25519 s x25519Effect

end Sys2Proof.Machine
end

