-- ==== Sys2Proof/Machine/Ed25519.lean ====
section
/-! DEFINITION. Ed25519 signing (rules R225, R226) and the command EDSIGN. -/

namespace Sys2Proof.Machine

/-- `H2I` of rule R225: a 64-byte hash as an integer, little-endian. -/
def H2I (h : List Byte) : Nat := LE h

/-- The 64-byte signature of a 32-byte seed and a message (rule R226). -/
def edSign (seed msg : List Byte) : List Byte :=
  let h := SHA512 seed
  let a := clamp (LE (slice h 0 32))
  let hashPrefix := slice h 32 64
  let A := penc (psmul a basePoint)
  let r := H2I (SHA512 (hashPrefix ++ msg)) % groupOrder
  let R := penc (psmul r basePoint)
  let k := H2I (SHA512 (R ++ A ++ msg)) % groupOrder
  let S := (r + k * a) % groupOrder
  R ++ toLE S 32

/-- The effect of EDSIGN inside its ranges (rule R226): only the signature is written. -/
def edsignEffect (s : State) : Effect :=
  s.store (s.arg 0) (edSign (s.read (s.arg 1) 32) (s.read (s.arg 2) (s.arg 3)))

/-- EDSIGN (rule R226): its effect under the execution template (rule R102). -/
def execEdsign (s : State) : Host.Outcome State Fault Refusal :=
  runCommand .edsign s edsignEffect

end Sys2Proof.Machine
end

