-- ==== Sys2Proof/Machine/Poly1305.lean ====
section
/-! DEFINITION. Poly1305 (rules R195 to R199) and the commands P13CLAMP, P13ACC and P13FIN. -/

namespace Sys2Proof.Machine

/-- q = 2^130 - 5 (rule R195). -/
def q : Nat := 2 ^ 130 - 5

/-- The clamp mask (rule R196). -/
def clampMask : Nat := 0x0FFFFFFC0FFFFFFC0FFFFFFC0FFFFFFF

/-- REP130 (rule R8): the representative stored for a residue mod q. `(2^136 - 1 - v) / q + 1` is the number of
containers v, v + q, … below 2^136, so every function with REP130_OK is one of these. -/
def rep130 (c : Config) (v : Nat) : Nat :=
  match c.rep130 with
  | .canonical => v
  | .other k => v + q * (Config.freeRep130 k v % ((2 ^ 136 - 1 - v) / q + 1))

/-- The message block as a number: its bytes with the terminating 1 appended (rule R198). -/
def polyBlock (bs : List Byte) : Nat := LE bs + 2 ^ (8 * bs.length)

/-- The step of rule R198: ((acc + m) · r) mod q. -/
def polyStep (acc r m : Nat) : Nat := ((acc + m) * r) % q

/-- The accumulator a 17-byte container denotes (rules R68, R195). -/
def State.readAcc (s : State) (addr : Nat) : Nat := s.readLE addr 17 % q

/-- The effect of P13CLAMP inside its ranges (rule R197). -/
def p13clampEffect (s : State) : Effect :=
  s.store (s.arg 0) (toLE (s.readLE (s.arg 1) 16 &&& clampMask) 16)

/-- P13CLAMP (rule R197): its effect under the execution template (rule R102). -/
def execP13clamp (s : State) : Host.Outcome State Fault Refusal :=
  runCommand .p13clamp s p13clampEffect

/-- The effect of P13ACC inside its ranges (rule R198): r is used as given, not clamped again. -/
def p13accEffect (s : State) : Effect :=
  let v := polyStep (s.readAcc (s.arg 0)) (s.readLE (s.arg 1) 16) (polyBlock (s.read (s.arg 2) (s.arg 3)))
  s.store (s.arg 0) (toLE (rep130 s.cfg v) 17)

/-- P13ACC (rule R198): its effect under the execution template (rule R102). -/
def execP13acc (s : State) : Host.Outcome State Fault Refusal :=
  runCommand .p13acc s p13accEffect

/-- The effect of P13FIN inside its ranges (rule R199): the accumulator fully reduced, s added, the sum cut to 128 bits. -/
def p13finEffect (s : State) : Effect :=
  s.store (s.arg 0) (toLE ((s.readAcc (s.arg 1) + s.readLE (s.arg 2) 16) % 2 ^ 128) 16)

/-- P13FIN (rule R199): its effect under the execution template (rule R102). -/
def execP13fin (s : State) : Host.Outcome State Fault Refusal :=
  runCommand .p13fin s p13finEffect

end Sys2Proof.Machine
end

