-- ==== Sys2Proof/Machine/System.lean ====
section
/-! DEFINITION. The system commands NOP and ZEROIZE (rules R241, R242). -/

namespace Sys2Proof.Machine

/-- The effect of NOP inside its ranges (rule R241): nothing but the command lifecycle. -/
def nopEffect (s : State) : Effect :=
  ⟨s.x, s.mem, none⟩

/-- NOP (rule R241): its effect under the execution template (rule R102). -/
def execNop (s : State) : Host.Outcome State Fault Refusal :=
  runCommand .nop s nopEffect

/-- The effect of ZEROIZE inside its ranges (rule R242): every byte of MEM and every x register 0. CTRL and HERR stay. -/
def zeroizeEffect (_s : State) : Effect :=
  ⟨Vector.replicate 8 0, [], none⟩

/-- ZEROIZE (rule R242): its effect under the execution template (rule R102). -/
def execZeroize (s : State) : Host.Outcome State Fault Refusal :=
  runCommand .zeroize s zeroizeEffect

end Sys2Proof.Machine
end

