-- ==== Sys2Proof/Machine/Dispatch.lean ====
section
/-! DEFINITION. The meaning of each command, one arm per constructor of `Instr`. -/

namespace Sys2Proof.Machine

def exec (i : Instr) (s : State) : Host.Outcome State Fault Refusal :=
  match i with
  | .nop => Sys2Proof.Machine.execNop s
  | .fmul => Sys2Proof.Machine.execFmul s
  | .fred => Sys2Proof.Machine.execFred s
  | .padd => Sys2Proof.Machine.execPadd s
  | .pdbl => Sys2Proof.Machine.execPdbl s
  | .psmul => Sys2Proof.Machine.execPsmul s
  | .sha256c iv => Sys2Proof.Machine.execSha256c iv s
  | .sha512c iv => Sys2Proof.Machine.execSha512c iv s
  | .ccqr qa qb qc qd => Sys2Proof.Machine.execCcqr qa qb qc qd s
  | .ccblk => Sys2Proof.Machine.execCcblk s
  | .p13clamp => Sys2Proof.Machine.execP13clamp s
  | .p13acc => Sys2Proof.Machine.execP13acc s
  | .p13fin => Sys2Proof.Machine.execP13fin s
  | .mlstep sw => Sys2Proof.Machine.execMlstep sw s
  | .x25519 => Sys2Proof.Machine.execX25519 s
  | .edsign => Sys2Proof.Machine.execEdsign s
  | .zeroize => Sys2Proof.Machine.execZeroize s

end Sys2Proof.Machine
end

