-- ==== Sys2Proof/Machine/Port.lean ====
section
/-! DEFINITION. The host port (rules R60, R70 to R74): register reads and writes (rules R24 to R28, R34, R36, R37), MEM
window reads and writes (rules R72, R73), the soft reset (rule R292) and the reset input (rule R290). A read appends
the value it returns to the host's replies (log entry 4). -/

namespace Sys2Proof.Machine

/-- ID (rule R24): the letters K, R, Y, P. -/
def idWord : Word := 0x4B525950

/-- CFG (rule R25): MEM_BYTES in bits 16:0, the rest 0. -/
def cfgWord (c : Config) : Word := .ofNat 32 (c.memBytes % 2 ^ 17)

/-- A host access refused by a protocol rule: HERR set, nothing else (rule R259). -/
def refuseAccess (s : State) : State := { s with status := s.status.refuseAccess }

/-- The value a host read returns, handed to the host. -/
def reply (s : State) (v : Word) : State := { s with port := { s.port with replies := s.port.replies ++ [v] } }

/-- The reset of rules R290 and R292: every piece of the block's state takes its reset value (rule R38), whatever it
was; the parameters (rule R293) and the world outside stay. The reset input is one event (log entry 12). A busy command
is abandoned: CUR is cleared, so its step never happens. -/
def resetBlock (s : State) : State := { State.reset with cfg := s.cfg, port := s.port }

/-- The registers of the register map (rule R34), by offset. -/
inductive RegName where
  | id
  | cfg
  | ctrl
  | status
  | cmd
  | arg (i : Fin 8)
  | reserved
  deriving DecidableEq, Repr

/-- The register map of rule R34. An aligned offset it does not name is reserved (rule R37). -/
def regAt (off : Nat) : RegName :=
  if off = 0x000 then .id
  else if off = 0x004 then .cfg
  else if off = 0x008 then .ctrl
  else if off = 0x00C then .status
  else if off = 0x010 then .cmd
  else if h : 0x020 ≤ off ∧ off < 0x040 then .arg ⟨(off - 0x020) / 4, by omega⟩
  else .reserved

/-- The value a register read returns. x registers are not readable while BUSY (rule R36). CMD and the reserved
offsets read 0 (rules R28, R37). -/
def regValue (s : State) : RegName → Word
  | .id => idWord
  | .cfg => cfgWord s.cfg
  | .ctrl => ctrlWord s.irqEn
  | .status => s.status.toWord
  | .cmd => 0
  | .arg i => if s.status.busy then 0 else s.x[i]
  | .reserved => 0

/-- What a register read does to the block: nothing (rule R74), but for HERR on an x register read while BUSY (rule
R36). -/
def afterRegRead (s : State) : RegName → State
  | .arg _ => if s.status.busy then refuseAccess s else s
  | .id | .cfg | .ctrl | .status | .cmd | .reserved => s

/-- A write of CTRL (rule R26): with bit 1 set it is the soft reset (rule R292) and nothing else of the value is used;
otherwise bit 0 is IRQ_EN. -/
def writeCtrl (s : State) (v : Word) : State :=
  if v.getLsbD 1 then resetBlock s else { s with irqEn := v.getLsbD 0 }

/-- A write of STATUS (rule R27). -/
def writeStatus (s : State) (v : Word) : State := { s with status := s.status.writeOneToClear v }

/-- A write of CMD (rule R28): accepted when BUSY = 0 and ERR = 0, whatever the word; else dropped with HERR. -/
def writeCmd (s : State) (v : Word) : State :=
  if !s.status.busy && !s.status.err then { s with cur := v, status := s.status.accept } else refuseAccess s

/-- A write of x[i] (rule R36). -/
def writeArg (s : State) (i : Fin 8) (v : Word) : State :=
  if s.status.busy then refuseAccess s else { s with x := s.x.set i v }

/-- A register write. ID, CFG and the reserved offsets ignore it (rules R24, R25, R37; log entry 9). -/
def writeReg (s : State) (v : Word) : RegName → State
  | .ctrl => writeCtrl s v
  | .status => writeStatus s v
  | .cmd => writeCmd s v
  | .arg i => writeArg s i v
  | .id | .cfg | .reserved => s

/-- The offsets of the register port: aligned (rule R71), from 0 to 0xFFFC (rule R70, log entry 10). -/
def regOffsetOk (off : Nat) : Bool := off % 4 == 0 && off ≤ 0xFFFC

/-- `HostRead32(off)` (rule R71). -/
def hostRead32 (s : State) (off : Nat) : Host.Outcome State Fault Refusal :=
  if regOffsetOk off then .next (reply (afterRegRead s (regAt off)) (regValue s (regAt off)))
  else .refused (.registerAccessOutsidePort off)

/-- `HostWrite32(off, v)` (rule R71). -/
def hostWrite32 (s : State) (off : Nat) (v : Word) : Host.Outcome State Fault Refusal :=
  if regOffsetOk off then .next (writeReg s v (regAt off)) else .refused (.registerAccessOutsidePort off)

/-- The number of bytes of a MEM window access. -/
def MemWidth.bytes : MemWidth → Nat
  | .w1 => 1
  | .w2 => 2
  | .w4 => 4

/-- The width of a MEM window write. -/
def MemData.width : MemData → MemWidth
  | .b1 _ => .w1
  | .b2 _ => .w2
  | .b4 _ => .w4

/-- The value of a MEM window write, v < 256^n (rule R70). -/
def MemData.value : MemData → Nat
  | .b1 v => v.toNat
  | .b2 v => v.toNat
  | .b4 v => v.toNat

/-- The bytes a MEM window write lays down: little-endian (rule R72). -/
def MemData.bytes (v : MemData) : List Byte := toLE v.value v.width.bytes

/-- Rule R72 against rule R73: a MEM window access of n bytes at a is carried out. -/
def windowOk (s : State) (a n : Nat) : Bool := !s.status.busy && a + n ≤ s.cfg.memBytes

/-- `HostMemRead(a, n)` (rules R72, R73). -/
def hostMemRead (s : State) (a : Nat) (n : MemWidth) : State :=
  if windowOk s a n.bytes then reply s (.ofNat 32 (LE (s.read a n.bytes))) else reply (refuseAccess s) 0

/-- `HostMemWrite(a, n, v)` (rules R72, R73). -/
def hostMemWrite (s : State) (a : Nat) (v : MemData) : State :=
  if windowOk s a v.width.bytes then { s with mem := s.mem.write a v.bytes } else refuseAccess s

/-- One host port operation (rule R70). -/
def hostAccess (s : State) : HostOp → Host.Outcome State Fault Refusal
  | .read32 off => hostRead32 s off
  | .write32 off v => hostWrite32 s off v
  | .memRead a n => .next (hostMemRead s a n)
  | .memWrite a v => .next (hostMemWrite s a v)

/-- The offset space of rule R60, for a read of n bytes: below 0x10000 the registers, as 32-bit words only (rule R71:
another width is outside the port's definition, `none`, log entry 10); 0x10000 + a is the MEM window at a, for every
a (log entry 7). -/
def readAtOffset (off : Nat) (n : MemWidth) : Option HostOp :=
  if off < 0x10000 then
    match n with
    | .w4 => some (.read32 off)
    | .w1 | .w2 => none
  else some (.memRead (off - 0x10000) n)

/-- The offset space of rule R60, for a write. -/
def writeAtOffset (off : Nat) (v : MemData) : Option HostOp :=
  if off < 0x10000 then
    match v with
    | .b4 w => some (.write32 off w)
    | .b1 _ | .b2 _ => none
  else some (.memWrite (off - 0x10000) v)

/-! ### Which agent moves next (rules R79, R263) -/

/-- Who moves: the host's port, the reset input, the engine (BUSY = 1, rule R262), or nobody (rule R282). Each comes
with the state in which it moves, its event taken from the pending ones. -/
inductive Turn where
  | host (op : HostOp) (s : State)
  | reset (s : State)
  | engine (s : State)
  | idle (s : State)
  deriving DecidableEq, Repr

/-- The engine's turn: its step is enabled exactly when BUSY = 1 (rule R262). -/
def engineTurn (s : State) : Turn := if s.status.busy then .engine s else .idle s

/-- The state with its first pending event taken. -/
def dropEvent (s : State) : State := { s with port := { s.port with pending := s.port.pending.tail } }

/-- The next event of the total order (rule R79). With no event pending the engine moves if it can (rule R263). -/
def nextTurn (s : State) : Turn :=
  match s.port.pending with
  | [] => engineTurn s
  | .host op :: _ => .host op (dropEvent s)
  | .reset :: _ => .reset (dropEvent s)
  | .engine :: _ => engineTurn (dropEvent s)

/-- The state in which the engine is about to run the word `w`: latched in CUR and accepted as rule R28 accepts it
(after the host has cleared any error, rule R266), the engine's turn the next event. -/
def latchCommand (s : State) (w : Word) : State :=
  { s with
    cur := w
    status := (clearError s).status.accept
    port := { s.port with pending := .engine :: s.port.pending } }

end Sys2Proof.Machine
end

