-- ==== Sys2Proof/Machine/Step.lean ====
section
/-! DEFINITION. One step: one atomic event of the total order of rule R79. -/

namespace Sys2Proof.Machine

/-- The engine's step (rule R262): phase 1 of rule R102, then the command's meaning. -/
def runEngine (s : State) : Host.Outcome State Fault Refusal :=
  match latchedCommand s with
  | .ok i => exec i s
  | .error _ => .next (completeIllegal s)

/-- One event: a host port operation, the reset, the engine's step, or none (a state with nothing pending and BUSY = 0
is final, rule R282, and stays as it is, log entry 5). -/
def step (s : State) : Host.Outcome State Fault Refusal :=
  match nextTurn s with
  | .host op t => hostAccess t op
  | .reset t => .next (resetBlock t)
  | .engine t => runEngine t
  | .idle t => .next t

/-- The state whose very next step runs the command word `w` (log entry 6). -/
def State.withFetchWord (s : State) (nbits w : Nat) : State := latchCommand s (.ofNat 32 (w % 2 ^ nbits))

end Sys2Proof.Machine
end

