-- ==== Sys2Proof/Safety.lean ====
section
/-! DEFINITION. The terms claims use: the invariant of the rules, what a completion looks like, and when a run is
over. -/

namespace Sys2Proof.Machine

/-- What the rules keep true of STATUS (rules R27, R251): BUSY excludes DONE and ERR, ERRCODE is 0 exactly when ERR is 0,
and only the four codes that commands raise ever stand in it (rule R258). -/
structure Status.Consistent (st : Status) : Prop where
  busy_not_done : st.busy = true → st.done = false
  busy_not_err  : st.busy = true → st.err = false
  no_code       : st.err = false → st.errcode = 0
  code          : st.err = true → st.errcode = 0x01 ∨ st.errcode = 0x02 ∨ st.errcode = 0x03 ∨ st.errcode = 0x12

/-- The invariant of the whole machine: legal parameters (rule R7), MEM in canonical form and inside its bounds (rule
R30), a consistent STATUS (rule R27), and an empty latch while idle (rule R31). -/
structure State.Inv (s : State) : Prop where
  cfg_legal  : s.cfg.legal = true
  mem_wf     : s.mem.wf
  mem_within : s.mem.within s.cfg.memBytes
  status     : s.status.Consistent
  idle_latch : s.status.busy = false → s.cur = 0

/-- Nothing of the machine changed but x, MEM, CUR and STATUS: what a completion keeps (rule R262). -/
structure SameAround (s t : State) : Prop where
  irqEn : t.irqEn = s.irqEn
  herr  : t.status.herr = s.status.herr
  cfg   : t.cfg = s.cfg
  port  : t.port = s.port

/-- `t` is what an `Ok` completion of a command in `s` makes of STATUS, CUR and everything around (rule R262): BUSY falls,
DONE rises, ERR and ERRCODE stay, CUR is cleared, CTRL, HERR, the parameters and the port stay. -/
structure CompletesOk (s t : State) : Prop where
  busy    : t.status.busy = false
  done    : t.status.done = true
  err     : t.status.err = s.status.err
  errcode : t.status.errcode = s.status.errcode
  cur     : t.cur = 0
  around  : SameAround s t

/-- `t` is what an error completion with the given code makes of STATUS, CUR and everything around (rule R262). -/
structure CompletesErr (s t : State) (code : Byte) : Prop where
  busy    : t.status.busy = false
  done    : t.status.done = true
  err     : t.status.err = true
  errcode : t.status.errcode = code
  cur     : t.cur = 0
  around  : SameAround s t

/-- The address lies in the `n` bytes from `addr` on. -/
abbrev InRegion (addr n a : Nat) : Prop := addr ≤ a ∧ a < addr + n

/-- The engine is to move: BUSY = 1, and no event pending comes before its turn (rules R79, R262). -/
structure EngineMoves (s : State) : Prop where
  busy : s.status.busy = true
  turn : s.port.pending = [] ∨ ∃ rest, s.port.pending = .engine :: rest

/-- A command stores exactly the bytes `bs`, the `n` bytes from `addr` on: it completes without error, that region
reads as `bs`, and every other byte of MEM and every x register is as before. -/
def StoresExactly (i : Instr) (s : State) (addr n : Nat) (bs : List Byte) : Prop :=
  ∃ t, exec i s = .next t ∧ CompletesOk s t ∧ t.x = s.x ∧ t.mem.read addr n = bs ∧
    ∀ a, ¬ InRegion addr n a → t.mem.byte a = s.mem.byte a

/-- A command ends with the error of the given code and nothing written (rules R252 to R254, R264). -/
def RaisesOnly (i : Instr) (s : State) (code : Byte) : Prop :=
  ∃ t, exec i s = .next t ∧ CompletesErr s t code ∧ t.x = s.x ∧ t.mem = s.mem

/-- A word with the given opcode and a non-zero must-be-zero field from bit `lo` up is no command (rule R96). -/
def RejectsReservedBits (op lo : Nat) : Prop :=
  ∀ w : Word, bitsOf w 7 0 = op → bitsOf w 31 lo ≠ 0 → decode w = .error .reservedBits

/-- Every piece of the block's state has its reset value (rule R38). -/
structure BlockIsReset (t : State) : Prop where
  x       : ∀ i : Fin 8, t.x[i] = 0
  irqEn   : t.irqEn = false
  busy    : t.status.busy = false
  done    : t.status.done = false
  err     : t.status.err = false
  herr    : t.status.herr = false
  errcode : t.status.errcode = 0
  cur     : t.cur = 0
  mem     : ∀ a, t.mem.byte a = 0

/-- The tuple meets the relations of extended coordinates, X·Y = Z·T and -X² + Y² = Z² + d·T² mod p (rules R140, R141);
Z ≠ 0 is not part of it. -/
def OnCurve (P : Point) : Prop :=
  P.X * P.Y % p = P.Z * P.T % p ∧ P.Y * P.Y % p = (P.X * P.X + P.Z * P.Z + curveD * P.T * P.T) % p

/-- The state after an outcome; a stop leaves the state as it was. -/
def stateAfter (s : State) : Host.Outcome State Fault Refusal → State
  | .next t => t
  | .fault _ | .refused _ => s

/-- The commands of a list, run one after the other. -/
def runCommands : List Instr → State → State
  | [], s => s
  | i :: is, s => runCommands is (stateAfter s (exec i s))

/-- The MLSTEP commands by which a host runs the ladder for the scalar k over bits n-1 down to 0 (rule R211). -/
def ladderCommands (k : Nat) : Nat → List Instr
  | 0 => []
  | t + 1 => .mlstep (k.testBit t ^^ k.testBit (t + 1)) :: ladderCommands k t

/-- The eight CCQR commands of one double-round (rules R183, R184). -/
def doubleRoundCommands : List Instr :=
  [.ccqr 0 4 8 12, .ccqr 1 5 9 13, .ccqr 2 6 10 14, .ccqr 3 7 11 15,
   .ccqr 0 5 10 15, .ccqr 1 6 11 12, .ccqr 2 7 8 13, .ccqr 3 4 9 14]

/-- The CCQR commands of n double-rounds. -/
def roundCommands : Nat → List Instr
  | 0 => []
  | n + 1 => doubleRoundCommands ++ roundCommands n

/-- The end of a run (rule R282): no event to come and BUSY = 0. -/
def State.final (s : State) : Bool := s.port.pending.isEmpty && !s.status.busy

/-- A run without errors (rule R282): ERR = 0 and HERR = 0. -/
def State.clean (s : State) : Bool := !s.status.err && !s.status.herr

end Sys2Proof.Machine
end

