-- ==== Sys2Proof/Certificates/Slice0/Obligations.lean ====
section
/-! DEFINITION. The statements for the provers. Each docstring names the rules it formalises. Every premise `mem.wf` is
part of the invariant that `StepKeepsTheInvariant` keeps. A statement that mentions `rep255` or `rep130` holds
for every implementation's choice of representatives (rule R8, log entry 3). `port.pending` and `port.replies`, the
events still to come and the values the host has read, are the model's own fields (log entry 4): a clause about them
formalises no rule. -/

open Sys2Proof Sys2Proof.Machine

/-! ### Encoding -/

/-- Rule R98: which words are commands, field by field; decoding an encoded legal command gives it back; encoding a
decoded word gives the word; and the formula of `Encode` for every command. -/
def Obligations.DecodeAndEncodeAgree : Prop :=
  (∀ w : Word, (∃ i, decode w = .ok i) ↔
    (bitsOf w 7 0 ∈ [0x00, 0x01, 0x02, 0x10, 0x11, 0x12, 0x31, 0x40, 0x41, 0x42, 0x51, 0x60, 0xFF] ∧
        bitsOf w 31 8 = 0) ∨
    (bitsOf w 7 0 ∈ [0x20, 0x21, 0x50] ∧ bitsOf w 31 9 = 0) ∨
    (bitsOf w 7 0 = 0x30 ∧ bitsOf w 31 24 = 0 ∧
      [bitsOf w 11 8, bitsOf w 15 12, bitsOf w 19 16, bitsOf w 23 20].Nodup)) ∧
  (∀ i : Instr, i.wf = true → decode (encode i) = .ok i) ∧
  (∀ (w : Word) (i : Instr), decode w = .ok i → encode i = w ∧ i.wf = true) ∧
  [Instr.nop, .fmul, .fred, .padd, .pdbl, .psmul, .ccblk, .p13clamp, .p13acc, .p13fin, .x25519, .edsign,
      .zeroize].map encode =
    [0x00, 0x01, 0x02, 0x10, 0x11, 0x12, 0x31, 0x40, 0x41, 0x42, 0x51, 0x60, 0xFF] ∧
  (∀ f : Bool, (encode (.sha256c f)).toNat = 0x20 ||| f.toNat <<< 8 ∧
    (encode (.sha512c f)).toNat = 0x21 ||| f.toNat <<< 8 ∧ (encode (.mlstep f)).toNat = 0x50 ||| f.toNat <<< 8) ∧
  (∀ qa qb qc qd : BitVec 4, (encode (.ccqr qa qb qc qd)).toNat =
    0x30 ||| qa.toNat <<< 8 ||| qb.toNat <<< 12 ||| qc.toNat <<< 16 ||| qd.toNat <<< 20)

/-- Rule R97 and 95_test_vectors.md section 5: 13 + 6 + 43680 of the 2^32 words are commands. -/
def Obligations.CommandWordsAreCounted : Prop :=
  {w : Word | ∃ i, decode w = .ok i}.ncard = 43699 ∧
  {w : Word | ∃ qa qb qc qd, decode w = .ok (.ccqr qa qb qc qd)}.ncard = 43680

/-- Words written out from rules R91 to R94 and R111, with their commands. -/
def Obligations.WrittenWordsDecode : Prop :=
  decode 0x00000000 = .ok .nop ∧
  decode 0x00000001 = .ok .fmul ∧
  decode 0x00000012 = .ok .psmul ∧
  decode 0x00000120 = .ok (.sha256c true) ∧
  decode 0x00000021 = .ok (.sha512c false) ∧
  decode 0x00D87230 = .ok (.ccqr 2 7 8 13) ∧
  decode 0x00000042 = .ok .p13fin ∧
  decode 0x00000150 = .ok (.mlstep true) ∧
  decode 0x00000060 = .ok .edsign ∧
  decode 0x000000FF = .ok .zeroize ∧
  decode 0x00000003 = .error (.undefinedOpcode 3) ∧
  decode 0x00000101 = .error .reservedBits ∧
  decode 0x00321130 = .error .equalIndices

/-! ### The step -/

/-- Rules R79, R282: a step performs the next pending event; with nothing pending and BUSY = 0, or at the engine's
turn with BUSY = 0, nothing but the event changes (log entries 4, 5: the model's choice). -/
def Obligations.StepTakesTheNextEvent : Prop :=
  (∀ (s : State) (op : HostOp) (rest : List Event), s.port.pending = .host op :: rest →
    step s = hostAccess { s with port := { s.port with pending := rest } } op) ∧
  (∀ s : State, s.status.busy = false → s.port.pending = [] → step s = .next s) ∧
  (∀ (s : State) (rest : List Event), s.status.busy = false → s.port.pending = .engine :: rest →
    step s = .next { s with port := { s.port with pending := rest } })

/-- Rules R31, R262, phase 1 of rule R102: at its turn the engine runs the command latched in CUR. -/
def Obligations.EngineRunsTheLatchedCommand : Prop :=
  ∀ (s : State) (i : Instr), EngineMoves s → decode s.cur = .ok i →
    step s = exec i { s with port := { s.port with pending := s.port.pending.tail } }

/-- Rule R252: a latched word that is no command completes with ILLEGAL_CMD, nothing read or written. -/
def Obligations.IllegalWordRaisesIllegalCmd : Prop :=
  ∀ (s : State) (e : DecodeError), EngineMoves s → decode s.cur = .error e →
    ∃ t, step s = .next t ∧ CompletesErr { s with port := { s.port with pending := s.port.pending.tail } } t 0x01 ∧
      t.x = s.x ∧ t.mem = s.mem

/-- Rules R262, R263: whatever word is latched, the engine's step happens, ends BUSY, sets DONE, clears CUR and leaves
CTRL, HERR and the parameters. -/
def Obligations.EngineAlwaysCompletes : Prop :=
  ∀ s : State, EngineMoves s → ∃ t, step s = .next t ∧ t.status.busy = false ∧ t.status.done = true ∧ t.cur = 0 ∧
    t.irqEn = s.irqEn ∧ t.status.herr = s.status.herr ∧ t.cfg = s.cfg ∧
    t.port.replies = s.port.replies ∧ t.port.pending = s.port.pending.tail

/-! ### The host port -/

/-- Rules R24, R25: ID and CFG read their constants in every state and ignore writes. -/
def Obligations.IdAndCfgAreConstant : Prop :=
  ∀ (s : State) (v : Word), s.cfg.legal = true →
    hostRead32 s 0x000 = .next (reply s 0x4B525950) ∧ hostWrite32 s 0x000 v = .next s ∧
    (∃ w, hostRead32 s 0x004 = .next (reply s w) ∧ w.toNat % 2 ^ 17 = s.cfg.memBytes ∧ w.toNat / 2 ^ 17 = 0) ∧
    hostWrite32 s 0x004 v = .next s

/-- Rule R26: CTRL reads IRQ_EN in bit 0 and zeros elsewhere; a write with bit 1 set is the soft reset and uses nothing
else of the value, any other write sets IRQ_EN from bit 0. -/
def Obligations.CtrlReadsAndWrites : Prop :=
  (∀ s : State, hostRead32 s 0x008 = .next (reply s (if s.irqEn then 1 else 0))) ∧
  (∀ (s : State) (v : Word), v.getLsbD 1 = true → hostWrite32 s 0x008 v = .next (resetBlock s)) ∧
  (∀ (s : State) (v : Word), v.getLsbD 1 = false → hostWrite32 s 0x008 v = .next { s with irqEn := v.getLsbD 0 }) ∧
  State.reset.irqEn = false

/-- Rule R27, the layout and the write: every bit of STATUS as the host reads it, and what writing it clears. -/
def Obligations.StatusReadsAndClears : Prop :=
  (∀ s : State, ∃ w, hostRead32 s 0x00C = .next (reply s w) ∧
    w.getLsbD 0 = s.status.busy ∧ w.getLsbD 1 = s.status.done ∧ w.getLsbD 2 = s.status.err ∧
    w.getLsbD 3 = s.status.herr ∧ (∀ k, k < 8 → w.getLsbD (8 + k) = s.status.errcode.getLsbD k) ∧
    (∀ k, 4 ≤ k → k < 8 → w.getLsbD k = false) ∧ (∀ k, 16 ≤ k → w.getLsbD k = false)) ∧
  (∀ (s : State) (v : Word), hostWrite32 s 0x00C v = .next { s with
    status := {
      busy := s.status.busy
      done := s.status.done && !v.getLsbD 1
      err := s.status.err && !v.getLsbD 2
      herr := s.status.herr && !v.getLsbD 3
      errcode := if v.getLsbD 2 then 0 else s.status.errcode } })

/-- Rule R28: a CMD write is accepted exactly when BUSY = 0 and ERR = 0, whatever the word; otherwise it is dropped and
sets HERR. CMD reads 0. -/
def Obligations.CmdAcceptance : Prop :=
  (∀ (s : State) (v : Word), s.status.busy = false → s.status.err = false →
    hostWrite32 s 0x010 v = .next { s with cur := v, status := { s.status with busy := true, done := false } }) ∧
  (∀ (s : State) (v : Word), s.status.busy = true ∨ s.status.err = true →
    hostWrite32 s 0x010 v = .next { s with status := { s.status with herr := true } }) ∧
  (∀ s : State, hostRead32 s 0x010 = .next (reply s 0))

/-- Rule R36: x registers can be read and written only while BUSY = 0; while BUSY = 1 both are refused with HERR. The
other registers answer alike whatever BUSY is, and no access to them sets HERR. -/
def Obligations.ArgumentRegisterAccess : Prop :=
  (∀ (s : State) (i : Fin 8) (v : Word), s.status.busy = true →
    hostRead32 s (0x020 + 4 * i.val) = .next (reply { s with status := { s.status with herr := true } } 0) ∧
    hostWrite32 s (0x020 + 4 * i.val) v = .next { s with status := { s.status with herr := true } }) ∧
  (∀ (s : State) (i : Fin 8) (v : Word), s.status.busy = false →
    hostRead32 s (0x020 + 4 * i.val) = .next (reply s s.x[i]) ∧
    ∃ y : Regs, hostWrite32 s (0x020 + 4 * i.val) v = .next { s with x := y } ∧ y[i] = v ∧
      ∀ j : Fin 8, j ≠ i → y[j] = s.x[j]) ∧
  (∀ (s : State) (off : Nat), off ∈ [0x000, 0x004, 0x008] → ∃ w, ∀ b : Bool,
    let u := { s with status := { s.status with busy := b } }
    hostRead32 u off = .next (reply u w)) ∧
  (∀ s : State, ∃ w, hostRead32 s 0x00C = .next (reply s w)) ∧
  (∀ (s : State) (off : Nat) (v : Word), off ∈ [0x000, 0x004, 0x008, 0x00C] →
    ∃ t, hostWrite32 s off v = .next t ∧ (t.status.herr = true → s.status.herr = true))

/-- Rule R37: the reserved offsets read 0 and ignore writes, and so do the reserved bits of CTRL and STATUS. -/
def Obligations.ReservedOffsetsAndBits : Prop :=
  (∀ (s : State) (off : Nat) (v : Word), off % 4 = 0 → (0x014 ≤ off ∧ off < 0x020) ∨ (0x040 ≤ off ∧ off ≤ 0xFFFC) →
    hostRead32 s off = .next (reply s 0) ∧ hostWrite32 s off v = .next s) ∧
  (∀ (s : State) (v w : Word), v.getLsbD 0 = w.getLsbD 0 → v.getLsbD 1 = w.getLsbD 1 →
    hostWrite32 s 0x008 v = hostWrite32 s 0x008 w) ∧
  (∀ (s : State) (v w : Word), v.getLsbD 1 = w.getLsbD 1 → v.getLsbD 2 = w.getLsbD 2 → v.getLsbD 3 = w.getLsbD 3 →
    hostWrite32 s 0x00C v = hostWrite32 s 0x00C w) ∧
  (∀ s : State, ∃ c w, hostRead32 s 0x008 = .next (reply s c) ∧ hostRead32 s 0x00C = .next (reply s w) ∧
    (∀ k, 1 ≤ k → c.getLsbD k = false) ∧ (∀ k, 4 ≤ k → k < 8 ∨ 16 ≤ k → w.getLsbD k = false))

/-- A register-space access at an offset that is not a multiple of 4 is refused (rule R71), and so is one above 0xFFFC,
which is the model's inference from the domain that rule R70 gives the port (log entry 10, DEDUCED); every other one is
answered. -/
def Obligations.RegisterPortBounds : Prop :=
  (∀ (s : State) (off : Nat) (v : Word), off % 4 ≠ 0 ∨ 0xFFFC < off →
    hostRead32 s off = .refused (.registerAccessOutsidePort off) ∧
    hostWrite32 s off v = .refused (.registerAccessOutsidePort off)) ∧
  (∀ (s : State) (off : Nat) (v : Word), off % 4 = 0 → off ≤ 0xFFFC →
    (∃ t, hostRead32 s off = .next t) ∧ ∃ t, hostWrite32 s off v = .next t)

/-- Rule R72: a MEM window access inside MEM while BUSY = 0 is carried out, little-endian, at any address and whatever
ERR, DONE and HERR are. -/
def Obligations.MemWindowCarriedOut : Prop :=
  (∀ (s : State) (a : Nat) (n : MemWidth), s.status.busy = false → a + n.bytes ≤ s.cfg.memBytes →
    ∃ v, hostAccess s (.memRead a n) = .next (reply s v) ∧ v.toNat = LE (s.mem.read a n.bytes)) ∧
  (∀ (s : State) (a : Nat) (d : MemData), s.mem.wf → s.status.busy = false → a + d.width.bytes ≤ s.cfg.memBytes →
    ∃ m : Memory, hostAccess s (.memWrite a d) = .next { s with mem := m } ∧
      (∀ k, k < d.width.bytes → (m.byte (a + k)).toNat = d.value / 256 ^ k % 256) ∧
      ∀ b, ¬ InRegion a d.width.bytes b → m.byte b = s.mem.byte b)

/-- Rule R73: a MEM window access while BUSY = 1, or not wholly inside MEM, returns 0, changes no byte and sets HERR. -/
def Obligations.MemWindowRefused : Prop :=
  (∀ (s : State) (a : Nat) (n : MemWidth), s.status.busy = true ∨ s.cfg.memBytes < a + n.bytes →
    hostAccess s (.memRead a n) = .next (reply { s with status := { s.status with herr := true } } 0)) ∧
  (∀ (s : State) (a : Nat) (d : MemData), s.status.busy = true ∨ s.cfg.memBytes < a + d.width.bytes →
    hostAccess s (.memWrite a d) = .next { s with status := { s.status with herr := true } })

/-- Rule R74: a host read changes nothing but HERR, and sets HERR only where rule R36 refuses it (an x register while
BUSY = 1) or rule R73 does (MEM while BUSY = 1, or not wholly inside MEM). -/
def Obligations.HostReadsHaveNoSideEffect : Prop :=
  ∀ (s t : State) (op : HostOp), (∃ off, op = .read32 off) ∨ (∃ a n, op = .memRead a n) →
    hostAccess s op = .next t →
    t.x = s.x ∧ t.mem = s.mem ∧ t.cur = s.cur ∧ t.irqEn = s.irqEn ∧ t.cfg = s.cfg ∧
    t.port.pending = s.port.pending ∧ t.status = { s.status with herr := t.status.herr } ∧
    (s.status.herr = true → t.status.herr = true) ∧
    (t.status.herr ≠ s.status.herr →
      (s.status.busy = true ∧ ((∃ i : Fin 8, op = .read32 (0x020 + 4 * i.val)) ∨ ∃ a n, op = .memRead a n)) ∨
      ∃ a n, op = .memRead a n ∧ s.cfg.memBytes < a + n.bytes)

/-- Rules R35, R260: the interrupt line is IRQ_EN and DONE; it follows every completion when enabled, and falls by
clearing DONE, by the next command or by clearing IRQ_EN. -/
def Obligations.InterruptLine : Prop :=
  (∀ s : State, s.irq = (s.irqEn && s.status.done)) ∧
  (∀ s t : State, EngineMoves s → step s = .next t → t.irq = s.irqEn) ∧
  (∀ s t : State, hostWrite32 s 0x00C 0x00000002 = .next t → t.irq = false) ∧
  (∀ (s t : State) (v : Word), s.status.busy = false → s.status.err = false →
    hostWrite32 s 0x010 v = .next t → t.irq = false) ∧
  (∀ s t : State, hostWrite32 s 0x008 0x00000000 = .next t → t.irq = false) ∧
  (∀ s t : State, hostWrite32 s 0x008 0x00000001 = .next t → t.irq = s.status.done)

/-! ### Reset -/

/-- Rule R38: the values after reset; ID and CFG are their constants. -/
def Obligations.ResetValues : Prop :=
  BlockIsReset State.reset ∧ State.reset.irq = false ∧
  hostRead32 State.reset 0x000 = .next (reply State.reset 0x4B525950) ∧
  hostRead32 State.reset 0x004 = .next (reply State.reset (.ofNat 32 State.reset.cfg.memBytes))

/-- Rules R290, R292: from every state, busy or not, the reset input and a CTRL write with SRST set give every piece of
the block its reset value; the parameters stay (rule R293) and no engine step is pending. -/
def Obligations.ResetFromEveryState : Prop :=
  (∀ (s : State) (rest : List Event), s.port.pending = .reset :: rest →
    ∃ t, step s = .next t ∧ BlockIsReset t ∧ t.cfg = s.cfg ∧ t.port.pending = rest ∧
      t.port.replies = s.port.replies) ∧
  (∀ (s : State) (v : Word), v.getLsbD 1 = true →
    ∃ t, hostWrite32 s 0x008 v = .next t ∧ BlockIsReset t ∧ t.cfg = s.cfg ∧ t.port = s.port)

/-! ### The commands, one statement each: where it completes and with what result, what it leaves alone, which error it
ends with outside its ranges, and which words encode it. -/

/-- Rule R241. -/
def Obligations.NopDoesNothing : Prop :=
  (∀ s : State, ∃ t, exec .nop s = .next t ∧ CompletesOk s t ∧ t.x = s.x ∧ t.mem = s.mem) ∧
  encode .nop = 0x00000000 ∧ RejectsReservedBits 0x00 8

/-- Rule R130. -/
def Obligations.FmulStoresTheProduct : Prop :=
  (∀ s : State, s.mem.wf → s.arg 0 + 32 ≤ s.cfg.memBytes → s.arg 1 + 32 ≤ s.cfg.memBytes →
    s.arg 2 + 32 ≤ s.cfg.memBytes →
    StoresExactly .fmul s (s.arg 0) 32
      (toLE (rep255 s.cfg ((LE (s.read (s.arg 1) 32) % p) * (LE (s.read (s.arg 2) 32) % p) % p)) 32)) ∧
  (∀ s : State, s.cfg.memBytes < s.arg 0 + 32 ∨ s.cfg.memBytes < s.arg 1 + 32 ∨ s.cfg.memBytes < s.arg 2 + 32 →
    RaisesOnly .fmul s 0x03) ∧
  encode .fmul = 0x00000001 ∧ RejectsReservedBits 0x01 8

/-- Rule R131: the result is below p, whatever REP255 is, so FRED of its own output returns it. -/
def Obligations.FredStoresTheCanonicalForm : Prop :=
  (∀ s : State, s.mem.wf → s.arg 0 + 32 ≤ s.cfg.memBytes → s.arg 1 + 32 ≤ s.cfg.memBytes →
    StoresExactly .fred s (s.arg 0) 32 (toLE (LE (s.read (s.arg 1) 32) % p) 32)) ∧
  (∀ c, c % p % p = c % p ∧ LE (toLE (c % p) 32) = c % p) ∧
  (∀ s : State, s.cfg.memBytes < s.arg 0 + 32 ∨ s.cfg.memBytes < s.arg 1 + 32 → RaisesOnly .fred s 0x03) ∧
  encode .fred = 0x00000002 ∧ RejectsReservedBits 0x02 8

/-- Rule R151. -/
def Obligations.PaddStoresTheSum : Prop :=
  (∀ s : State, s.mem.wf → s.arg 0 + 128 ≤ s.cfg.memBytes → s.arg 1 + 128 ≤ s.cfg.memBytes →
    s.arg 2 + 128 ≤ s.cfg.memBytes →
    let coord := fun a => LE (s.read a 32) % p
    let P : Point := ⟨coord (s.arg 1), coord (s.arg 1 + 32), coord (s.arg 1 + 64), coord (s.arg 1 + 96)⟩
    let Q : Point := ⟨coord (s.arg 2), coord (s.arg 2 + 32), coord (s.arg 2 + 64), coord (s.arg 2 + 96)⟩
    let R := padd P Q
    StoresExactly .padd s (s.arg 0) 128
      (toLE (rep255 s.cfg R.X) 32 ++ toLE (rep255 s.cfg R.Y) 32 ++ toLE (rep255 s.cfg R.Z) 32 ++
        toLE (rep255 s.cfg R.T) 32)) ∧
  (∀ s : State, s.cfg.memBytes < s.arg 0 + 128 ∨ s.cfg.memBytes < s.arg 1 + 128 ∨ s.cfg.memBytes < s.arg 2 + 128 →
    RaisesOnly .padd s 0x03) ∧
  encode .padd = 0x00000010 ∧ RejectsReservedBits 0x10 8

/-- Rule R152: the T bytes of the input do not affect the result. -/
def Obligations.PdblStoresTheDouble : Prop :=
  (∀ s : State, s.mem.wf → s.arg 0 + 128 ≤ s.cfg.memBytes → s.arg 1 + 128 ≤ s.cfg.memBytes →
    let coord := fun a => LE (s.read a 32) % p
    ∀ T, let R := pdbl ⟨coord (s.arg 1), coord (s.arg 1 + 32), coord (s.arg 1 + 64), T⟩
    StoresExactly .pdbl s (s.arg 0) 128
      (toLE (rep255 s.cfg R.X) 32 ++ toLE (rep255 s.cfg R.Y) 32 ++ toLE (rep255 s.cfg R.Z) 32 ++
        toLE (rep255 s.cfg R.T) 32)) ∧
  (∀ s : State, s.cfg.memBytes < s.arg 0 + 128 ∨ s.cfg.memBytes < s.arg 1 + 128 → RaisesOnly .pdbl s 0x03) ∧
  encode .pdbl = 0x00000011 ∧ RejectsReservedBits 0x11 8

/-- Rule R153: the scalar is used as it is, all 256 bits. -/
def Obligations.PsmulStoresTheMultiple : Prop :=
  (∀ s : State, s.mem.wf → s.arg 0 + 128 ≤ s.cfg.memBytes → s.arg 1 + 32 ≤ s.cfg.memBytes →
    s.arg 2 + 128 ≤ s.cfg.memBytes →
    let coord := fun a => LE (s.read a 32) % p
    let P : Point := ⟨coord (s.arg 2), coord (s.arg 2 + 32), coord (s.arg 2 + 64), coord (s.arg 2 + 96)⟩
    let R := psmul (LE (s.read (s.arg 1) 32)) P
    StoresExactly .psmul s (s.arg 0) 128
      (toLE (rep255 s.cfg R.X) 32 ++ toLE (rep255 s.cfg R.Y) 32 ++ toLE (rep255 s.cfg R.Z) 32 ++
        toLE (rep255 s.cfg R.T) 32)) ∧
  (∀ s : State, s.cfg.memBytes < s.arg 0 + 128 ∨ s.cfg.memBytes < s.arg 1 + 32 ∨ s.cfg.memBytes < s.arg 2 + 128 →
    RaisesOnly .psmul s 0x03) ∧
  encode .psmul = 0x00000012 ∧ RejectsReservedBits 0x12 8

/-- Rule R166. -/
def Obligations.Sha256cStoresTheNewState : Prop :=
  (∀ (iv : Bool) (s : State), s.mem.wf → s.arg 0 + 32 ≤ s.cfg.memBytes → s.arg 1 + 64 ≤ s.cfg.memBytes →
    let word := fun a => BitVec.ofNat 32 (BE (s.read a 4))
    let H : HashState 32 := if iv then IV256 else
      ⟨word (s.arg 0), word (s.arg 0 + 4), word (s.arg 0 + 8), word (s.arg 0 + 12),
        word (s.arg 0 + 16), word (s.arg 0 + 20), word (s.arg 0 + 24), word (s.arg 0 + 28)⟩
    let R := sha256compress H ((List.range 16).map fun i => word (s.arg 1 + 4 * i))
    StoresExactly (.sha256c iv) s (s.arg 0) 32
      (toBE R.a.toNat 4 ++ toBE R.b.toNat 4 ++ toBE R.c.toNat 4 ++ toBE R.d.toNat 4 ++
        toBE R.e.toNat 4 ++ toBE R.f.toNat 4 ++ toBE R.g.toNat 4 ++ toBE R.h.toNat 4)) ∧
  (∀ (iv : Bool) (s : State), s.cfg.memBytes < s.arg 0 + 32 ∨ s.cfg.memBytes < s.arg 1 + 64 →
    RaisesOnly (.sha256c iv) s 0x03) ∧
  encode (.sha256c false) = 0x00000020 ∧ encode (.sha256c true) = 0x00000120 ∧ RejectsReservedBits 0x20 9

/-- Rule R169. -/
def Obligations.Sha512cStoresTheNewState : Prop :=
  (∀ (iv : Bool) (s : State), s.mem.wf → s.arg 0 + 64 ≤ s.cfg.memBytes → s.arg 1 + 128 ≤ s.cfg.memBytes →
    let word := fun a => BitVec.ofNat 64 (BE (s.read a 8))
    let H : HashState 64 := if iv then IV512 else
      ⟨word (s.arg 0), word (s.arg 0 + 8), word (s.arg 0 + 16), word (s.arg 0 + 24),
        word (s.arg 0 + 32), word (s.arg 0 + 40), word (s.arg 0 + 48), word (s.arg 0 + 56)⟩
    let R := sha512compress H ((List.range 16).map fun i => word (s.arg 1 + 8 * i))
    StoresExactly (.sha512c iv) s (s.arg 0) 64
      (toBE R.a.toNat 8 ++ toBE R.b.toNat 8 ++ toBE R.c.toNat 8 ++ toBE R.d.toNat 8 ++
        toBE R.e.toNat 8 ++ toBE R.f.toNat 8 ++ toBE R.g.toNat 8 ++ toBE R.h.toNat 8)) ∧
  (∀ (iv : Bool) (s : State), s.cfg.memBytes < s.arg 0 + 64 ∨ s.cfg.memBytes < s.arg 1 + 128 →
    RaisesOnly (.sha512c iv) s 0x03) ∧
  encode (.sha512c false) = 0x00000021 ∧ encode (.sha512c true) = 0x00000121 ∧ RejectsReservedBits 0x21 9

/-- Rules R180, R183: the four named words become the quarter-round's, the other twelve stay. -/
def Obligations.CcqrRewritesFourWords : Prop :=
  (∀ (qa qb qc qd : BitVec 4) (s : State), s.mem.wf → (Instr.ccqr qa qb qc qd).wf = true →
    s.arg 0 + 64 ≤ s.cfg.memBytes →
    let word := fun (u : State) (k : Nat) => BitVec.ofNat 32 (LE (u.read (s.arg 0 + 4 * k) 4))
    ∃ t, exec (.ccqr qa qb qc qd) s = .next t ∧ CompletesOk s t ∧ t.x = s.x ∧
      (word t qa.toNat, word t qb.toNat, word t qc.toNat, word t qd.toNat) =
        qr (word s qa.toNat) (word s qb.toNat) (word s qc.toNat) (word s qd.toNat) ∧
      (∀ k, k < 16 → k ≠ qa.toNat → k ≠ qb.toNat → k ≠ qc.toNat → k ≠ qd.toNat → word t k = word s k) ∧
      ∀ a, ¬ InRegion (s.arg 0) 64 a → t.mem.byte a = s.mem.byte a) ∧
  (∀ (qa qb qc qd : BitVec 4) (s : State), s.cfg.memBytes < s.arg 0 + 64 →
    RaisesOnly (.ccqr qa qb qc qd) s 0x03) ∧
  (∀ w : Word, bitsOf w 7 0 = 0x30 →
    bitsOf w 31 24 ≠ 0 ∨ ¬ [bitsOf w 11 8, bitsOf w 15 12, bitsOf w 19 16, bitsOf w 23 20].Nodup →
    ∃ e, decode w = .error e)

/-- Rule R185: the counter is the value of x[3], all 32 bits of it, and is not changed. -/
def Obligations.CcblkStoresTheBlock : Prop :=
  (∀ s : State, s.mem.wf → s.arg 0 + 64 ≤ s.cfg.memBytes → s.arg 1 + 32 ≤ s.cfg.memBytes →
    s.arg 2 + 12 ≤ s.cfg.memBytes →
    let word := fun a => BitVec.ofNat 32 (LE (s.read a 4))
    StoresExactly .ccblk s (s.arg 0) 64
      (chacha20block ((List.range 8).map fun i => word (s.arg 1 + 4 * i)) s.x[3]
        ((List.range 3).map fun i => word (s.arg 2 + 4 * i)))) ∧
  (∀ s : State, s.cfg.memBytes < s.arg 0 + 64 ∨ s.cfg.memBytes < s.arg 1 + 32 ∨ s.cfg.memBytes < s.arg 2 + 12 →
    RaisesOnly .ccblk s 0x03) ∧
  encode .ccblk = 0x00000031 ∧ RejectsReservedBits 0x31 8

/-- Rule R197; the mask is that of rule R196. -/
def Obligations.P13clampMasksTheKey : Prop :=
  (∀ s : State, s.mem.wf → s.arg 0 + 16 ≤ s.cfg.memBytes → s.arg 1 + 16 ≤ s.cfg.memBytes →
    StoresExactly .p13clamp s (s.arg 0) 16
      (toLE (LE (s.read (s.arg 1) 16) &&& 0x0FFFFFFC0FFFFFFC0FFFFFFC0FFFFFFF) 16)) ∧
  (∀ s : State, s.cfg.memBytes < s.arg 0 + 16 ∨ s.cfg.memBytes < s.arg 1 + 16 → RaisesOnly .p13clamp s 0x03) ∧
  encode .p13clamp = 0x00000040 ∧ RejectsReservedBits 0x40 8

/-- Rule R198, with its value check (rule R253). -/
def Obligations.P13accAccumulates : Prop :=
  (∀ s : State, s.mem.wf → 1 ≤ s.arg 3 → s.arg 3 ≤ 16 → s.arg 0 + 17 ≤ s.cfg.memBytes →
    s.arg 1 + 16 ≤ s.cfg.memBytes → s.arg 2 + s.arg 3 ≤ s.cfg.memBytes →
    let acc := LE (s.read (s.arg 0) 17) % q
    let r := LE (s.read (s.arg 1) 16)
    let m := LE (s.read (s.arg 2) (s.arg 3)) + 2 ^ (8 * s.arg 3)
    StoresExactly .p13acc s (s.arg 0) 17 (toLE (rep130 s.cfg ((acc + m) * r % q)) 17)) ∧
  (∀ s : State, s.arg 3 = 0 ∨ 16 < s.arg 3 → RaisesOnly .p13acc s 0x02) ∧
  (∀ s : State, 1 ≤ s.arg 3 → s.arg 3 ≤ 16 →
    s.cfg.memBytes < s.arg 0 + 17 ∨ s.cfg.memBytes < s.arg 1 + 16 ∨ s.cfg.memBytes < s.arg 2 + s.arg 3 →
    RaisesOnly .p13acc s 0x03) ∧
  encode .p13acc = 0x00000041 ∧ RejectsReservedBits 0x41 8

/-- Rule R199. -/
def Obligations.P13finStoresTheTag : Prop :=
  (∀ s : State, s.mem.wf → s.arg 0 + 16 ≤ s.cfg.memBytes → s.arg 1 + 17 ≤ s.cfg.memBytes →
    s.arg 2 + 16 ≤ s.cfg.memBytes →
    StoresExactly .p13fin s (s.arg 0) 16
      (toLE ((LE (s.read (s.arg 1) 17) % q + LE (s.read (s.arg 2) 16)) % 2 ^ 128) 16)) ∧
  (∀ s : State, s.cfg.memBytes < s.arg 0 + 16 ∨ s.cfg.memBytes < s.arg 1 + 17 ∨ s.cfg.memBytes < s.arg 2 + 16 →
    RaisesOnly .p13fin s 0x03) ∧
  encode .p13fin = 0x00000042 ∧ RejectsReservedBits 0x42 8

/-- Rule R211: the last 128 bytes of the record are written; the 32 bytes of x1 keep what they had. -/
def Obligations.MlstepRewritesTheRecord : Prop :=
  (∀ (sw : Bool) (s : State), s.mem.wf → s.arg 0 + 160 ≤ s.cfg.memBytes →
    let elem := fun k => LE (s.read (s.arg 0 + 32 * k) 32) % p
    let l := ladderstep sw (elem 0) ⟨elem 1, elem 2, elem 3, elem 4⟩
    StoresExactly (.mlstep sw) s (s.arg 0 + 32) 128
      (toLE (rep255 s.cfg l.x2) 32 ++ toLE (rep255 s.cfg l.z2) 32 ++ toLE (rep255 s.cfg l.x3) 32 ++
        toLE (rep255 s.cfg l.z3) 32)) ∧
  (∀ (sw : Bool) (s : State), s.cfg.memBytes < s.arg 0 + 160 → RaisesOnly (.mlstep sw) s 0x03) ∧
  encode (.mlstep false) = 0x00000050 ∧ encode (.mlstep true) = 0x00000150 ∧ RejectsReservedBits 0x50 9

/-- Rules R215, R255: the output is written in every case; the all-zero one also raises WEAK_PUBLIC_KEY. -/
def Obligations.X25519StoresTheSharedSecret : Prop :=
  (∀ s : State, s.mem.wf → s.arg 0 + 32 ≤ s.cfg.memBytes → s.arg 1 + 32 ≤ s.cfg.memBytes →
    s.arg 2 + 32 ≤ s.cfg.memBytes →
    let out := x25519 (s.read (s.arg 1) 32) (s.read (s.arg 2) 32)
    (out ≠ List.replicate 32 0 → StoresExactly .x25519 s (s.arg 0) 32 out) ∧
    (out = List.replicate 32 0 →
      ∃ t, exec .x25519 s = .next t ∧ CompletesErr s t 0x12 ∧ t.x = s.x ∧ t.mem.read (s.arg 0) 32 = out ∧
        ∀ a, ¬ InRegion (s.arg 0) 32 a → t.mem.byte a = s.mem.byte a)) ∧
  (∀ s : State, s.cfg.memBytes < s.arg 0 + 32 ∨ s.cfg.memBytes < s.arg 1 + 32 ∨ s.cfg.memBytes < s.arg 2 + 32 →
    RaisesOnly .x25519 s 0x03) ∧
  encode .x25519 = 0x00000051 ∧ RejectsReservedBits 0x51 8

/-- Rule R226; the signature's last byte is below 0x20 because S < L. -/
def Obligations.EdsignStoresTheSignature : Prop :=
  (∀ s : State, s.mem.wf → s.arg 0 + 64 ≤ s.cfg.memBytes → s.arg 1 + 32 ≤ s.cfg.memBytes →
    s.arg 2 + s.arg 3 ≤ s.cfg.memBytes →
    let M := s.read (s.arg 2) (s.arg 3)
    let h := SHA512 (s.read (s.arg 1) 32)
    let a := clamp (LE (h.take 32))
    let A := penc (psmul a basePoint)
    let r := LE (SHA512 (h.drop 32 ++ M)) % groupOrder
    let R := penc (psmul r basePoint)
    let k := LE (SHA512 (R ++ A ++ M)) % groupOrder
    let sig := R ++ toLE ((r + k * a) % groupOrder) 32
    StoresExactly .edsign s (s.arg 0) 64 sig ∧ (sig.getD 63 0).toNat < 0x20) ∧
  (∀ s : State, s.cfg.memBytes < s.arg 0 + 64 ∨ s.cfg.memBytes < s.arg 1 + 32 ∨
      s.cfg.memBytes < s.arg 2 + s.arg 3 → RaisesOnly .edsign s 0x03) ∧
  encode .edsign = 0x00000060 ∧ RejectsReservedBits 0x60 8

/-- Rule R242: the only command that writes x registers, and the only one that writes MEM outside operand regions. -/
def Obligations.ZeroizeClearsMemAndX : Prop :=
  (∀ s : State, ∃ t, exec .zeroize s = .next t ∧ CompletesOk s t ∧ (∀ i : Fin 8, t.x[i] = 0) ∧
    ∀ a, t.mem.byte a = 0) ∧
  (∀ (i : Instr) (s t : State), s.mem.wf → i ≠ .zeroize → exec i s = .next t →
    t.x = s.x ∧ ∀ a, (∀ r ∈ operands i s, ¬ InRegion r.addr r.len a) → t.mem.byte a = s.mem.byte a) ∧
  encode .zeroize = 0x000000FF ∧ RejectsReservedBits 0xFF 8

/-! ### The whole machine -/

/-- The state after reset meets the invariant. -/
def Obligations.ResetMeetsTheInvariant : Prop := State.reset.Inv

/-- Rules R7, R27, R30, R31, R251, R258, R293: every step keeps the invariant, and no step changes the parameters. -/
def Obligations.StepKeepsTheInvariant : Prop :=
  ∀ s t : State, s.Inv → step s = .next t → t.Inv ∧ t.cfg = s.cfg

/-- Rule R264: after a completion that raised an error, other than WEAK_PUBLIC_KEY, MEM and x are exactly as they were,
and WEAK_PUBLIC_KEY comes from X25519 alone. -/
def Obligations.ErrorsArePrecise : Prop :=
  ∀ s t : State, EngineMoves s → s.status.err = false → step s = .next t → t.status.err = true →
    (t.status.errcode ≠ 0x12 → t.x = s.x ∧ t.mem = s.mem) ∧
    (t.status.errcode = 0x12 → decode s.cur = .ok .x25519)

/-- Rules R105, R256: which error a command ends with when several apply: ILLEGAL_CMD, then ARG_RANGE, then ADDR_RANGE,
then WEAK_PUBLIC_KEY; with none of them it ends without error. -/
def Obligations.ErrorPriority : Prop :=
  ∀ s t : State, EngineMoves s → s.status.err = false → s.status.errcode = 0 → step s = .next t →
    (∀ e, decode s.cur = .error e → t.status.errcode = 0x01) ∧
    (decode s.cur = .ok .p13acc → s.arg 3 = 0 ∨ 16 < s.arg 3 → t.status.errcode = 0x02) ∧
    (∀ i, decode s.cur = .ok i → (i = .p13acc → 1 ≤ s.arg 3 ∧ s.arg 3 ≤ 16) →
      (∃ r ∈ operands i s, s.cfg.memBytes < r.addr + r.len) → t.status.errcode = 0x03) ∧
    (∀ i, decode s.cur = .ok i → (i = .p13acc → 1 ≤ s.arg 3 ∧ s.arg 3 ≤ 16) →
      (∀ r ∈ operands i s, r.addr + r.len ≤ s.cfg.memBytes) →
      t.status.errcode = (if i = .x25519 ∧
        x25519 (s.read (s.arg 1) 32) (s.read (s.arg 2) 32) = List.replicate 32 0 then 0x12 else 0x00)) ∧
    (t.status.err = true ↔ t.status.errcode ≠ 0x00)

/-- Rules R21, R76, R103, R106, R262: a command changes no byte outside the regions that the operand table calls outputs,
no x register (ZEROIZE excepted), nor CTRL, HERR or the parameters. -/
def Obligations.CommandsWriteOnlyTheirOutputs : Prop :=
  ∀ (i : Instr) (s t : State), s.mem.wf → i ≠ .zeroize → exec i s = .next t →
    SameAround s t ∧ t.x = s.x ∧
    ∀ a, (∀ r ∈ operands i s, r.access ≠ .input → ¬ InRegion r.addr r.len a) → t.mem.byte a = s.mem.byte a

/-- Rules R102, R103, R307: a command's result and its error depend on nothing but the parameters, the x registers and
the bytes of the regions that the operand table calls inputs. -/
def Obligations.ResultsDependOnlyOnOperands : Prop :=
  ∀ (i : Instr) (s u s' u' : State), s.mem.wf → u.mem.wf → s.x = u.x → s.cfg = u.cfg → s.status = u.status →
    (∀ r ∈ operands i s, r.access ≠ .output → ∀ a, InRegion r.addr r.len a → s.mem.byte a = u.mem.byte a) →
    exec i s = .next s' → exec i u = .next u' →
    s'.status = u'.status ∧ s'.x = u'.x ∧
    (valueOk i s = true → (∀ r ∈ operands i s, r.addr + r.len ≤ s.cfg.memBytes) →
      ∀ r ∈ operands i s, r.access ≠ .input → ∀ a, InRegion r.addr r.len a → s'.mem.byte a = u'.mem.byte a)

/-- Rules R33, R36, R73: while BUSY = 1 no host access tells x, MEM or CUR apart: two busy states that agree on
everything else answer every access alike. -/
def Obligations.BusyHidesOperands : Prop :=
  ∀ (s u s' : State) (op : HostOp) (rest : List Event), s.status.busy = true → s.irqEn = u.irqEn →
    s.status = u.status → s.cfg = u.cfg → s.port = u.port → s.port.pending = .host op :: rest → step s = .next s' →
    ∃ u', step u = .next u' ∧ s'.irqEn = u'.irqEn ∧ s'.status = u'.status ∧ s'.cfg = u'.cfg ∧ s'.port = u'.port

/-- Rule R79 (3): nothing changes MEM or x but the engine's completion, a reset, and, while BUSY = 0, the host's write
of an x register or of MEM. -/
def Obligations.WhatChangesMemAndX : Prop :=
  ∀ s t : State, step s = .next t → t.x ≠ s.x ∨ t.mem ≠ s.mem →
    EngineMoves s ∨
    (∃ rest, s.port.pending = .reset :: rest) ∨
    (∃ v rest, s.port.pending = .host (.write32 0x008 v) :: rest ∧ v.getLsbD 1 = true) ∨
    (s.status.busy = false ∧ ∃ (i : Fin 8) (v : Word) (rest : List Event),
      s.port.pending = .host (.write32 (0x020 + 4 * i.val) v) :: rest) ∨
    (s.status.busy = false ∧ ∃ a d rest, s.port.pending = .host (.memWrite a d) :: rest ∧
      a + d.width.bytes ≤ s.cfg.memBytes)

/-- Rules R263, R292: a running command ends only by the engine's completion or by a reset; any other step keeps BUSY,
CUR, x and MEM. -/
def Obligations.BusyEndsOnlyByCompletionOrReset : Prop :=
  ∀ s t : State, s.status.busy = true → step s = .next t →
    EngineMoves s ∨
    (∃ rest, s.port.pending = .reset :: rest) ∨
    (∃ v rest, s.port.pending = .host (.write32 0x008 v) :: rest ∧ v.getLsbD 1 = true) ∨
    (t.status.busy = true ∧ t.cur = s.cur ∧ t.x = s.x ∧ t.mem = s.mem)

/-- Rules R266, R267: while ERR = 1 no command is accepted; ERR and ERRCODE stay until the host writes 1 to STATUS.ERR
or a reset; a CMD write is dropped and sets HERR; the write of STATUS clears both, restores nothing else, and the next
CMD write is accepted. -/
def Obligations.ErrorBlocksUntilCleared : Prop :=
  (∀ s t : State, s.status.busy = false → s.status.err = true → step s = .next t →
    t.status.busy = false ∧
    ((t.status.err = true ∧ t.status.errcode = s.status.errcode) ∨
     (∃ rest, s.port.pending = .reset :: rest) ∨
     (∃ v rest, s.port.pending = .host (.write32 0x008 v) :: rest ∧ v.getLsbD 1 = true) ∨
     (∃ v rest, s.port.pending = .host (.write32 0x00C v) :: rest ∧ v.getLsbD 2 = true))) ∧
  (∀ (s : State) (v : Word), s.status.err = true →
    hostWrite32 s 0x010 v = .next { s with status := { s.status with herr := true } }) ∧
  (∀ s : State, hostWrite32 s 0x00C 0x00000004 =
    .next { s with status := { s.status with err := false, errcode := 0 } }) ∧
  (∀ (s t : State) (v : Word), s.status.busy = false → hostWrite32 s 0x00C 0x00000004 = .next t →
    ∃ u, hostWrite32 t 0x010 v = .next u ∧ u.status.busy = true ∧ u.cur = v)

/-! ### The arithmetic -/

/-- Rule R8: what a command stores for a residue is a container of it, and is the residue itself in the default
instance. -/
def Obligations.RepresentativesAreContainers : Prop :=
  (∀ (c : Config) (v : Nat), v < p → rep255 c v < 2 ^ 256 ∧ rep255 c v % p = v) ∧
  (∀ (c : Config) (v : Nat), v < q → rep130 c v < 2 ^ 136 ∧ rep130 c v % q = v) ∧
  (∀ v : Nat, rep255 Config.default v = v ∧ rep130 Config.default v = v)

/-- Rules R121 to R124, over the integers. -/
def Obligations.FieldOperations : Prop :=
  (∀ a b : Nat, a < p → b < p →
    (fadd a b : Int) = ((a : Int) + b) % (2 ^ 255 - 19) ∧
    (fsub a b : Int) = ((a : Int) - b) % (2 ^ 255 - 19) ∧
    (fmul a b : Int) = ((a : Int) * b) % (2 ^ 255 - 19) ∧
    fsq a = fmul a a ∧
    (fneg a : Int) = ((2 ^ 255 - 19 : Int) - a) % (2 ^ 255 - 19)) ∧
  fsub 0 1 = p - 1 ∧ fneg 0 = 0

/-- Rule R125, the exponentiation: the fixed sequence of squarings and multiplications gives a^(p-2) mod p. -/
def Obligations.FieldInverseIsTheFermatPower : Prop :=
  (∀ a : Nat, finv a = a ^ (2 ^ 255 - 21) % p) ∧ finv 0 = 0

/-- Rule R125, the inverse. It rests on p being prime (rule R120). -/
def Obligations.FieldInverseInverts : Prop :=
  ∀ a : Nat, 0 < a → a < p → fmul a (finv a) = 1

/-- Rules R142 to R144: the curve constants fit each other, B is on the curve with the stated encoding, and L·B is the
neutral element. -/
def Obligations.CurveConstants : Prop :=
  (curveD * 121666 + 121665) % p = 0 ∧ curveD < p ∧ curveD2 = 2 * curveD % p ∧
  5 * basePoint.Y % p = 4 ∧ basePoint.X % 2 = 0 ∧ basePoint.T = basePoint.X * basePoint.Y % p ∧
  (basePoint.Y * basePoint.Y) % p =
    (1 + curveD * (basePoint.X * basePoint.X) * (basePoint.Y * basePoint.Y) + basePoint.X * basePoint.X) % p ∧
  penc basePoint = (0x58 : Byte) :: List.replicate 31 0x66 ∧
  groupOrder = 0x1000000000000000000000000000000014DEF9DEA2F79CD65812631A5CF5D3ED ∧
  penc (psmul groupOrder basePoint) = (0x01 : Byte) :: List.replicate 31 0x00

/-- Rule R147, the equations, of the formulas of rules R145, R146 and R148: sums, doubles and multiples of tuples that meet the relations of extended coordinates meet
them too. That Z stays non-zero is not stated. -/
def Obligations.EdwardsResultsStayOnTheCurve : Prop :=
  ∀ P Q : Point, OnCurve P → OnCurve Q → OnCurve (padd P Q) ∧ OnCurve (pdbl P) ∧ ∀ s : Nat, OnCurve (psmul s P)

/-- Rule R213, on the integer and on its 32 bytes. -/
def Obligations.ScalarClamp : Prop :=
  (∀ s : Nat, s < 2 ^ 256 → 2 ^ 254 ≤ clamp s ∧ clamp s < 2 ^ 255 ∧ clamp s % 8 = 0 ∧
    ∀ k, 3 ≤ k → k ≤ 253 → (clamp s).testBit k = s.testBit k) ∧
  (∀ bs : List Byte, bs.length = 32 →
    toLE (clamp (LE bs)) 32 =
      (bs.set 0 (bs.getD 0 0 &&& 0xF8)).set 31 ((bs.getD 31 0 &&& 0x7F) ||| 0x40))

/-- Rule R199, corner cases: P13FIN gives one tag for every container of one residue, so the tag does not depend on which
representative P13ACC stored. -/
def Obligations.TagIgnoresTheRepresentative : Prop :=
  ∀ s u s' u' : State, s.mem.wf → u.mem.wf → s.x = u.x → s.cfg.memBytes = u.cfg.memBytes →
    s.arg 0 + 16 ≤ s.cfg.memBytes → s.arg 1 + 17 ≤ s.cfg.memBytes → s.arg 2 + 16 ≤ s.cfg.memBytes →
    LE (s.read (s.arg 1) 17) % q = LE (u.read (s.arg 1) 17) % q → s.read (s.arg 2) 16 = u.read (s.arg 2) 16 →
    exec .p13fin s = .next s' → exec .p13fin u = .next u' → s'.read (s.arg 0) 16 = u'.read (s.arg 0) 16

/-- Rules R161, R162, R165, R167, the closed forms: the round constants are the first 32 (64) bits of the fractional
parts of the cube roots of the first 64 (80) primes, the initial values those of the square roots of the first eight. -/
def Obligations.HashConstantsAreRoots : Prop :=
  let primes := (List.range 410).filter fun n => Nat.Prime n
  let cubeRoot := fun (t w c : Nat) =>
    ∃ r, r ^ 3 ≤ primes.getD t 0 * 2 ^ (3 * w) ∧ primes.getD t 0 * 2 ^ (3 * w) < (r + 1) ^ 3 ∧ r % 2 ^ w = c
  let squareRoot := fun (t w c : Nat) =>
    ∃ r, r ^ 2 ≤ primes.getD t 0 * 2 ^ (2 * w) ∧ primes.getD t 0 * 2 ^ (2 * w) < (r + 1) ^ 2 ∧ r % 2 ^ w = c
  K256.length = 64 ∧ (∀ t, t < 64 → cubeRoot t 32 (K256.getD t 0).toNat) ∧
  K512.length = 80 ∧ (∀ t, t < 80 → cubeRoot t 64 (K512.getD t 0).toNat) ∧
  (∀ t, t < 8 → squareRoot t 32 (IV256.words.getD t 0).toNat) ∧
  (∀ t, t < 8 → squareRoot t 64 (IV512.words.getD t 0).toNat)

/-- Rule R170: the padding is the least one, and a padded message is whole blocks. -/
def Obligations.Sha512Padding : Prop :=
  ∀ msg : List Byte, ∃ k, (msg.length + 1 + k) % 128 = 112 ∧ (∀ j, j < k → (msg.length + 1 + j) % 128 ≠ 112) ∧
    sha512Padded msg = msg ++ [0x80] ++ List.replicate k 0 ++ toBE (8 * msg.length) 16 ∧
    (sha512Padded msg).length % 128 = 0

/-- Rule R211, against rule R216: 255 MLSTEP commands with the swap bits k[t] xor k[t+1] on a record (u, 1, 0, u, 1), and
one division, make the X25519 command. -/
def Obligations.LadderCommandsMakeX25519 : Prop :=
  ∀ (s : State) (scalar u : List Byte), scalar.length = 32 → s.mem.wf → s.arg 0 + 160 ≤ s.cfg.memBytes →
    s.readField (s.arg 0) = udec u → s.readLadder (s.arg 0) = ⟨1, 0, udec u, 1⟩ →
    let t := runCommands (ladderCommands (clamp (LE scalar)) 255) s
    let l := t.readLadder (s.arg 0)
    toLE (fmul l.x2 (finv l.z2)) 32 = x25519 scalar u

/-- Rule R183, against rule R184: 80 CCQR commands on an initial state, and one addition of it, make the block. -/
def Obligations.QuarterRoundCommandsMakeTheBlock : Prop :=
  ∀ (s : State) (k n : List Word) (ctr : Word), k.length = 8 → n.length = 3 → s.mem.wf →
    s.arg 0 + 64 ≤ s.cfg.memBytes → s.read (s.arg 0) 64 = bytesLE (chachaInit k ctr n) →
    let t := runCommands (roundCommands 10) s
    bytesLE (List.zipWith (· + ·) (wordsLE 16 (t.read (s.arg 0) 64)) (chachaInit k ctr n)) = chacha20block k ctr n

/-- Rule R215, corner cases: the peer keys that denote u = 0, 1 or p - 1, in any form (bit 255 set or not, not reduced),
give the all-zero output for every scalar. -/
def Obligations.WeakPeerKeysGiveZero : Prop :=
  ∀ scalar u : List Byte, udec u ∈ [0, 1, p - 1] → x25519 scalar u = List.replicate 32 0
end

