-- ==== Sys2Proof/Laws/Bytes.lean ====
section
/-! SUPPORT. Byte strings and the integers they hold: lengths, bounds and round trips of rule R13, and the word arrays
of rules R66 and R67. -/

namespace Sys2Proof.Machine

@[simp] theorem toLE_length (v n : Nat) : (toLE v n).length = n := by
  induction n generalizing v with
  | zero => rfl
  | succ n ih => simp [toLE, ih]

@[simp] theorem toBE_length (v n : Nat) : (toBE v n).length = n := by simp [toBE]

@[simp] theorem zeros_length (n : Nat) : (zeros n).length = n := by simp [zeros]

/-- A byte string holds an integer below 256^n. -/
theorem LE_lt (bs : List Byte) : LE bs < 256 ^ bs.length := by
  induction bs with
  | nil => simp [LE]
  | cons b bs ih =>
    simp only [LE, List.length_cons, pow_succ]
    have hb := b.isLt
    omega

/-- `LE(toLE(v, n)) = v` for v < 256^n (rule R13). -/
theorem LE_toLE (v n : Nat) : LE (toLE v n) = v % 256 ^ n := by
  induction n generalizing v with
  | zero => simp [toLE, LE, Nat.mod_one]
  | succ n ih =>
    have hmod : v % 256 ^ (n + 1) = v % 256 + 256 * (v / 256 % 256 ^ n) := by
      rw [pow_succ' 256 n, Nat.mod_mul]
    simp only [toLE, LE, ih, BitVec.toNat_ofNat, hmod]

theorem LE_toLE_of_lt {v n : Nat} (h : v < 256 ^ n) : LE (toLE v n) = v := by
  rw [LE_toLE, Nat.mod_eq_of_lt h]

/-- The bytes of the integer a byte string holds are the byte string. -/
theorem toLE_LE (bs : List Byte) : toLE (LE bs) bs.length = bs := by
  induction bs with
  | nil => rfl
  | cons b bs ih =>
    have hb := b.isLt
    simp only [LE, List.length_cons, toLE]
    have h1 : (b.toNat + 256 * LE bs) / 256 = LE bs := by omega
    have h2 : BitVec.ofNat 8 (b.toNat + 256 * LE bs) = b := by
      apply BitVec.eq_of_toNat_eq
      simp only [BitVec.toNat_ofNat]
      omega
    rw [h1, h2, ih]

theorem BE_toBE (v n : Nat) : BE (toBE v n) = v % 256 ^ n := by simp [BE, toBE, LE_toLE]

/-- The first string holds the low part of a concatenation (rules R12, R13). -/
theorem LE_append (as bs : List Byte) : LE (as ++ bs) = LE as + 256 ^ as.length * LE bs := by
  induction as with
  | nil => simp [LE]
  | cons a as ih =>
    simp only [List.cons_append, LE, ih, List.length_cons, pow_succ]
    ring

@[simp] theorem wordsLE_length (n : Nat) (bs : List Byte) : (wordsLE n bs).length = n := by simp [wordsLE]

@[simp] theorem wordsBE_length (w n : Nat) (bs : List Byte) : (wordsBE w n bs).length = n := by simp [wordsBE]

@[simp] theorem bytesLE_length (ws : List Word) : (bytesLE ws).length = 4 * ws.length := by
  induction ws with
  | nil => rfl
  | cons w ws ih =>
    have : bytesLE (w :: ws) = toLE w.toNat 4 ++ bytesLE ws := rfl
    rw [this, List.length_append, ih, toLE_length, List.length_cons]
    omega

@[simp] theorem bytesBE_length (w : Nat) (ws : List (BitVec w)) : (bytesBE w ws).length = w / 8 * ws.length := by
  induction ws with
  | nil => rfl
  | cons v ws ih =>
    have : bytesBE w (v :: ws) = toBE v.toNat (w / 8) ++ bytesBE w ws := rfl
    rw [this, List.length_append, ih, toBE_length, List.length_cons]
    ring

/-- The words of sixteen little-endian words laid out are those words (rule R67), and so for any number. -/
theorem wordsLE_bytesLE (ws : List Word) : wordsLE ws.length (bytesLE ws) = ws := by
  have drop4 : ∀ (i : Nat) (ws : List Word), (bytesLE ws).drop (4 * i) = bytesLE (ws.drop i) := by
    intro i
    induction i with
    | zero => simp
    | succ i ih =>
      intro ws
      cases ws with
      | nil => simp [bytesLE]
      | cons w ws =>
        have : bytesLE (w :: ws) = toLE w.toNat 4 ++ bytesLE ws := rfl
        rw [this, List.drop_succ_cons, ← ih ws, List.drop_append, toLE_length,
          List.drop_eq_nil_of_le (by rw [toLE_length]; omega), List.nil_append, show 4 * (i + 1) - 4 = 4 * i by omega]
  refine List.ext_getElem (by simp) fun i h1 h2 => ?_
  simp only [wordsLE, List.getElem_map, List.getElem_range, slice, drop4]
  rw [List.drop_eq_getElem_cons h2]
  have : bytesLE (ws[i] :: ws.drop (i + 1)) = toLE ws[i].toNat 4 ++ bytesLE (ws.drop (i + 1)) := rfl
  rw [this, show 4 * i + 4 - 4 * i = (toLE ws[i].toNat 4).length by simp, List.take_left, LE_toLE]
  apply BitVec.eq_of_toNat_eq
  have hw := ws[i].isLt
  simp only [BitVec.toNat_ofNat]
  omega

end Sys2Proof.Machine
end

