-- ==== Sys2Proof/Laws/Field.lean ====
section
/-! SUPPORT. Field elements and representatives: bounds (rules R8, R120), and the lengths of the byte strings that the
commands store. -/

namespace Sys2Proof.Machine

theorem p_pos : 0 < p := by decide

theorem q_pos : 0 < q := by decide

theorem p_lt : p < 2 ^ 255 := by decide

theorem fdec_lt (c : Nat) : fdec c < p := Nat.mod_lt _ p_pos

theorem fadd_lt (a b : Nat) : fadd a b < p := Nat.mod_lt _ p_pos

theorem fsub_lt (a b : Nat) : fsub a b < p := Nat.mod_lt _ p_pos

theorem fmul_lt (a b : Nat) : fmul a b < p := Nat.mod_lt _ p_pos

theorem fsq_lt (a : Nat) : fsq a < p := fmul_lt a a

theorem fneg_lt (a : Nat) : fneg a < p := Nat.mod_lt _ p_pos

@[simp] theorem fieldBytes_length (s : State) (v : Nat) : (s.fieldBytes v).length = 32 := toLE_length _ _

@[simp] theorem pointBytes_length (s : State) (P : Point) : (s.pointBytes P).length = 128 := by
  simp [State.pointBytes]

@[simp] theorem ladderBytes_length (s : State) (l : Ladder) : (s.ladderBytes l).length = 128 := by
  simp [State.ladderBytes]

@[simp] theorem penc_length (P : Point) : (penc P).length = 32 := toLE_length _ _

@[simp] theorem edSign_length (seed msg : List Byte) : (edSign seed msg).length = 64 := by
  simp [edSign]

@[simp] theorem x25519_length (k u : List Byte) : (x25519 k u).length = 32 := toLE_length _ _

@[simp] theorem QR_length (st : List Word) (i j k l : Nat) : (QR st i j k l).length = st.length := by
  simp [QR]

@[simp] theorem doubleRound_length (st : List Word) : (doubleRound st).length = st.length := by
  simp [doubleRound]

@[simp] theorem doubleRounds_length (n : Nat) (st : List Word) : (doubleRounds n st).length = st.length := by
  induction n generalizing st with
  | zero => rfl
  | succ n ih => simp [doubleRounds, ih]

/-- The block function gives 64 bytes for 8 key words and 3 nonce words (rule R184). -/
theorem chacha20block_length {k n : List Word} (hk : k.length = 8) (hn : n.length = 3) (ctr : Word) :
    (chacha20block k ctr n).length = 64 := by
  simp [chacha20block, chachaInit, chachaConstants, hk, hn]

@[simp] theorem words_length {w : Nat} (H : HashState w) : H.words.length = 8 := rfl

end Sys2Proof.Machine
end

