-- ==== Sys2Proof/Laws/Memory.lean ====
section
/-! SUPPORT. MEM: a read after a write, what a write leaves alone, and that every memory operation keeps the canonical
form and the bounds. -/

namespace Sys2Proof.Machine

namespace Memory

@[simp] theorem byte_nil (a : Nat) : Memory.byte [] a = 0#8 := rfl

/-- No byte is listed below every listed address. -/
theorem byte_eq_zero_of_lt {m : Memory} {a : Nat} (h : ∀ c ∈ m, a < c.1) : Memory.byte m a = 0#8 := by
  induction m with
  | nil => rfl
  | cons c rest ih =>
    have hc : a < c.1 := h c (by simp)
    have hne : c.1 ≠ a := by omega
    simp only [Memory.byte, hne, if_false]
    exact ih fun d hd => h d (by simp [hd])

/-- A byte written is the byte read, and every other byte is as before. -/
theorem byte_setByte {m : Memory} (hm : m.wf) (a b : Nat) (v : Byte) :
    (m.setByte a v).byte b = if b = a then v else m.byte b := by
  induction m with
  | nil =>
    by_cases hv : v = 0#8 <;> by_cases hb : a = b <;>
      simp [Memory.setByte, Memory.byte, hv, hb, @eq_comm _ b a]
  | cons c rest ih =>
    obtain ⟨k, w⟩ := c
    have hrest : Memory.wf rest := ⟨(List.pairwise_cons.mp hm.1).2, fun d hd => hm.2 d (by simp [hd])⟩
    have hlt : ∀ d ∈ rest, k < d.1 := (List.pairwise_cons.mp hm.1).1
    simp only [Memory.setByte]
    by_cases h1 : a < k
    · have hz : Memory.byte ((k, w) :: rest) a = 0#8 :=
        byte_eq_zero_of_lt (by
          intro d hd
          rcases List.mem_cons.mp hd with rfl | hd
          · exact h1
          · exact lt_trans h1 (hlt d hd))
      by_cases hv : v = 0#8
      · by_cases hb : b = a
        · subst hb; simp only [h1, hv, if_true]; exact hz
        · simp [h1, hv, hb]
      · by_cases hb : b = a
        · subst hb; simp [h1, hv, Memory.byte]
        · have hab : ¬ a = b := fun h => hb h.symm
          simp [h1, hv, hb, hab, Memory.byte]
    · by_cases h2 : a = k
      · subst h2
        have hz : Memory.byte rest a = 0#8 := byte_eq_zero_of_lt hlt
        by_cases hv : v = 0#8
        · by_cases hb : b = a
          · subst hb; simp [hv, hz]
          · have hab : ¬ a = b := fun h => hb h.symm
            simp [hv, hb, hab, Memory.byte]
        · by_cases hb : b = a
          · subst hb; simp [hv, Memory.byte]
          · have hab : ¬ a = b := fun h => hb h.symm
            simp [hv, hb, hab, Memory.byte]
      · simp only [h1, h2, if_false, Memory.byte]
        by_cases hk : k = b
        · subst hk
          have : ¬ k = a := fun h => h2 h.symm
          simp [this]
        · simp only [hk, if_false]
          exact ih hrest

/-- What a written memory lists was listed before, or is the byte written. -/
theorem mem_setByte {m : Memory} {a : Nat} {v : Byte} {c : Host.Cell} (h : c ∈ m.setByte a v) :
    c ∈ m ∨ (c = (a, v) ∧ v ≠ 0#8) := by
  induction m with
  | nil =>
    by_cases hv : v = 0#8 <;> simp [Memory.setByte, hv] at h ⊢
    exact h
  | cons d rest ih =>
    obtain ⟨k, w⟩ := d
    simp only [Memory.setByte] at h
    by_cases h1 : a < k
    · by_cases hv : v = 0#8
      · simp only [h1, hv, if_true] at h; exact .inl h
      · simp only [h1, hv, if_true, if_false] at h
        rcases List.mem_cons.mp h with rfl | h
        · exact .inr ⟨rfl, hv⟩
        · exact .inl h
    · by_cases h2 : a = k
      · by_cases hv : v = 0#8
        · simp only [h2, hv, if_true, if_false, lt_irrefl] at h
          exact .inl (List.mem_cons_of_mem _ h)
        · simp only [h2, hv, if_true, if_false, lt_irrefl] at h
          rcases List.mem_cons.mp h with rfl | h
          · exact .inr ⟨by rw [h2], hv⟩
          · exact .inl (List.mem_cons_of_mem _ h)
      · simp only [h1, h2, if_false] at h
        rcases List.mem_cons.mp h with rfl | h
        · exact .inl (by simp)
        · rcases ih h with h | h
          · exact .inl (List.mem_cons_of_mem _ h)
          · exact .inr h

/-- One byte written keeps the canonical form. -/
theorem setByte_wf {m : Memory} (hm : m.wf) (a : Nat) (v : Byte) : (m.setByte a v).wf := by
  induction m with
  | nil => by_cases hv : v = 0#8 <;> simp [Memory.setByte, Memory.wf, hv]
  | cons d rest ih =>
    obtain ⟨k, w⟩ := d
    have hrest : Memory.wf rest := ⟨(List.pairwise_cons.mp hm.1).2, fun c hc => hm.2 c (by simp [hc])⟩
    have hlt : ∀ c ∈ rest, k < c.1 := (List.pairwise_cons.mp hm.1).1
    refine ⟨?_, fun c hc => ?_⟩
    · simp only [Memory.setByte]
      by_cases h1 : a < k
      · by_cases hv : v = 0#8
        · simp only [h1, hv, if_true]; exact hm.1
        · simp only [h1, hv, if_true, if_false]
          refine List.pairwise_cons.mpr ⟨fun c hc => ?_, hm.1⟩
          rcases List.mem_cons.mp hc with rfl | hc
          · exact h1
          · exact lt_trans h1 (hlt c hc)
      · by_cases h2 : a = k
        · by_cases hv : v = 0#8
          · simp only [h2, hv, if_true, if_false, lt_irrefl]; exact hrest.1
          · simp only [h2, hv, if_true, if_false, lt_irrefl]
            exact List.pairwise_cons.mpr ⟨hlt, hrest.1⟩
        · simp only [h1, h2, if_false]
          refine List.pairwise_cons.mpr ⟨fun c hc => ?_, (ih hrest).1⟩
          rcases mem_setByte hc with hc | ⟨rfl, _⟩
          · exact hlt c hc
          · show k < a
            omega
    · rcases mem_setByte hc with hc | ⟨rfl, hv⟩
      · exact hm.2 c hc
      · exact hv

/-- One byte written inside the bounds keeps the bounds. -/
theorem setByte_within {m : Memory} {n : Nat} (hm : m.within n) {a : Nat} (ha : a < n) (v : Byte) :
    (m.setByte a v).within n := by
  intro c hc
  rcases mem_setByte hc with hc | ⟨rfl, _⟩
  · exact hm c hc
  · exact ha

/-- Every write keeps the canonical form. -/
theorem write_wf {m : Memory} (hm : m.wf) (a : Nat) (bs : List Byte) : (m.write a bs).wf := by
  induction bs generalizing m a with
  | nil => exact hm
  | cons b bs ih => exact ih (setByte_wf hm a b) (a + 1)

/-- A write of bytes that lie inside the bounds keeps the bounds. -/
theorem write_within {m : Memory} {n : Nat} (hm : m.within n) {a : Nat} {bs : List Byte} (h : a + bs.length ≤ n) :
    (m.write a bs).within n := by
  induction bs generalizing m a with
  | nil => exact hm
  | cons b bs ih =>
    simp only [List.length_cons] at h
    exact ih (setByte_within hm (by omega) b) (by omega)

/-- The byte at an address after a write: the written one inside the region, the old one outside. -/
theorem byte_write {m : Memory} (hm : m.wf) (a : Nat) (bs : List Byte) (b : Nat) :
    (m.write a bs).byte b = if h : a ≤ b ∧ b < a + bs.length then bs[b - a] else m.byte b := by
  induction bs generalizing m a with
  | nil =>
    have : ¬ (a ≤ b ∧ b < a + ([] : List Byte).length) := by simp only [List.length_nil]; omega
    rw [dif_neg this, Memory.write]
  | cons v bs ih =>
    rw [Memory.write, ih (setByte_wf hm a v) (a + 1), byte_setByte hm]
    by_cases h1 : a + 1 ≤ b ∧ b < a + 1 + bs.length
    · have h2 : a ≤ b ∧ b < a + (v :: bs).length := by simp only [List.length_cons]; omega
      simp only [h1, h2]
      have : b - a = (b - (a + 1)) + 1 := by omega
      simp [this]
    · by_cases hb : b = a
      · subst hb
        simp
      · have h2 : ¬ (a ≤ b ∧ b < a + (v :: bs).length) := by simp only [List.length_cons]; omega
        rw [dif_neg h1, dif_neg h2, if_neg hb]

/-- A write leaves every byte outside its region alone. -/
theorem byte_write_outside {m : Memory} (hm : m.wf) {a : Nat} {bs : List Byte} {b : Nat}
    (h : ¬ InRegion a bs.length b) : (m.write a bs).byte b = m.byte b := by
  rw [byte_write hm, dif_neg h]

@[simp] theorem read_length (m : Memory) (a n : Nat) : (m.read a n).length = n := by
  induction n generalizing a with
  | zero => rfl
  | succ n ih => simp [Memory.read, ih]

@[simp] theorem getElem_read (m : Memory) (a n i : Nat) (h : i < (m.read a n).length) :
    (m.read a n)[i] = m.byte (a + i) := by
  induction n generalizing a i with
  | zero => simp [Memory.read] at h
  | succ n ih =>
    cases i with
    | zero => rfl
    | succ i =>
      simp only [Memory.read, List.getElem_cons_succ]
      rw [ih (a + 1) i, show a + 1 + i = a + (i + 1) by omega]

/-- A read of the region just written gives the bytes written. -/
theorem read_write_same {m : Memory} (hm : m.wf) (a : Nat) (bs : List Byte) :
    (m.write a bs).read a bs.length = bs := by
  refine List.ext_getElem (by simp) fun i h1 h2 => ?_
  rw [getElem_read, byte_write hm]
  have : a ≤ a + i ∧ a + i < a + bs.length := by omega
  simp [this]

/-- Two memories with the same bytes in a region give the same read there. -/
theorem read_congr {m m' : Memory} {a n : Nat} (h : ∀ b, InRegion a n b → m.byte b = m'.byte b) :
    m.read a n = m'.read a n := by
  refine List.ext_getElem (by simp) fun i h1 _ => ?_
  simp only [read_length] at h1
  rw [getElem_read, getElem_read]
  exact h _ ⟨by omega, by omega⟩

/-- A read of a region that a write does not touch is as before. -/
theorem read_write_disjoint {m : Memory} (hm : m.wf) {a b n : Nat} {bs : List Byte}
    (h : b + n ≤ a ∨ a + bs.length ≤ b) : (m.write a bs).read b n = m.read b n :=
  read_congr fun c hc => byte_write_outside hm (by simp only [InRegion] at hc ⊢; omega)

end Memory

@[simp] theorem read_length (s : State) (a n : Nat) : (s.read a n).length = n := Memory.read_length s.mem a n

end Sys2Proof.Machine
end

