-- ==== Sys2Proof/Laws/State.lean ====
section
/-! SUPPORT. The small lemmas of the state: what each field is after each update, and the cases of the updates that
depend on BUSY, ERR or a written value. -/

namespace Sys2Proof.Machine

/-! ### STATUS -/

namespace Status

variable (st : Status) (v : Word) (e : CmdError) (r : Option CmdError)

@[simp] theorem accept_busy : st.accept.busy = true := rfl
@[simp] theorem accept_done : st.accept.done = false := rfl
@[simp] theorem accept_err : st.accept.err = st.err := rfl
@[simp] theorem accept_herr : st.accept.herr = st.herr := rfl
@[simp] theorem accept_errcode : st.accept.errcode = st.errcode := rfl

@[simp] theorem refuseAccess_busy : st.refuseAccess.busy = st.busy := rfl
@[simp] theorem refuseAccess_done : st.refuseAccess.done = st.done := rfl
@[simp] theorem refuseAccess_err : st.refuseAccess.err = st.err := rfl
@[simp] theorem refuseAccess_herr : st.refuseAccess.herr = true := rfl
@[simp] theorem refuseAccess_errcode : st.refuseAccess.errcode = st.errcode := rfl

@[simp] theorem complete_busy : (st.complete r).busy = false := by cases r <;> rfl
@[simp] theorem complete_done : (st.complete r).done = true := by cases r <;> rfl
@[simp] theorem complete_herr : (st.complete r).herr = st.herr := by cases r <;> rfl
@[simp] theorem complete_none_err : (st.complete none).err = st.err := rfl
@[simp] theorem complete_none_errcode : (st.complete none).errcode = st.errcode := rfl
@[simp] theorem complete_some_err : (st.complete (some e)).err = true := rfl
@[simp] theorem complete_some_errcode : (st.complete (some e)).errcode = e.code := rfl

@[simp] theorem writeOneToClear_busy : (st.writeOneToClear v).busy = st.busy := rfl
@[simp] theorem writeOneToClear_done : (st.writeOneToClear v).done = (st.done && !v.getLsbD 1) := rfl
@[simp] theorem writeOneToClear_err : (st.writeOneToClear v).err = (st.err && !v.getLsbD 2) := rfl
@[simp] theorem writeOneToClear_herr : (st.writeOneToClear v).herr = (st.herr && !v.getLsbD 3) := rfl
@[simp] theorem writeOneToClear_errcode :
    (st.writeOneToClear v).errcode = if v.getLsbD 2 then 0 else st.errcode := rfl

end Status

/-! ### The state -/

variable (s : State) (e : Effect) (v : Word) (err : CmdError) (addr : Nat) (bs : List Byte)

@[simp] theorem complete_x : (complete s e).x = e.x := rfl
@[simp] theorem complete_mem : (complete s e).mem = e.mem := rfl
@[simp] theorem complete_cur : (complete s e).cur = 0 := rfl
@[simp] theorem complete_status : (complete s e).status = s.status.complete e.err := rfl
@[simp] theorem complete_irqEn : (complete s e).irqEn = s.irqEn := rfl
@[simp] theorem complete_cfg : (complete s e).cfg = s.cfg := rfl
@[simp] theorem complete_port : (complete s e).port = s.port := rfl

@[simp] theorem raise_x : (s.raise err).x = s.x := rfl
@[simp] theorem raise_mem : (s.raise err).mem = s.mem := rfl
@[simp] theorem raise_err : (s.raise err).err = some err := rfl

@[simp] theorem store_x : (s.store addr bs).x = s.x := rfl
@[simp] theorem store_mem : (s.store addr bs).mem = s.mem.write addr bs := rfl
@[simp] theorem store_err : (s.store addr bs).err = none := rfl

@[simp] theorem storeSharedSecret_x : (s.storeSharedSecret addr bs).x = s.x := rfl
@[simp] theorem storeSharedSecret_mem : (s.storeSharedSecret addr bs).mem = s.mem.write addr bs := rfl
@[simp] theorem storeSharedSecret_err :
    (s.storeSharedSecret addr bs).err = if bs = zeros 32 then some .weakPublicKey else none := rfl

@[simp] theorem refuseAccess_x : (refuseAccess s).x = s.x := rfl
@[simp] theorem refuseAccess_mem : (refuseAccess s).mem = s.mem := rfl
@[simp] theorem refuseAccess_cur : (refuseAccess s).cur = s.cur := rfl
@[simp] theorem refuseAccess_irqEn : (refuseAccess s).irqEn = s.irqEn := rfl
@[simp] theorem refuseAccess_status : (refuseAccess s).status = s.status.refuseAccess := rfl
@[simp] theorem refuseAccess_cfg : (refuseAccess s).cfg = s.cfg := rfl
@[simp] theorem refuseAccess_port : (refuseAccess s).port = s.port := rfl

@[simp] theorem reply_x : (reply s v).x = s.x := rfl
@[simp] theorem reply_mem : (reply s v).mem = s.mem := rfl
@[simp] theorem reply_cur : (reply s v).cur = s.cur := rfl
@[simp] theorem reply_irqEn : (reply s v).irqEn = s.irqEn := rfl
@[simp] theorem reply_status : (reply s v).status = s.status := rfl
@[simp] theorem reply_cfg : (reply s v).cfg = s.cfg := rfl
@[simp] theorem reply_pending : (reply s v).port.pending = s.port.pending := rfl
@[simp] theorem reply_replies : (reply s v).port.replies = s.port.replies ++ [v] := rfl

@[simp] theorem dropEvent_x : (dropEvent s).x = s.x := rfl
@[simp] theorem dropEvent_mem : (dropEvent s).mem = s.mem := rfl
@[simp] theorem dropEvent_cur : (dropEvent s).cur = s.cur := rfl
@[simp] theorem dropEvent_irqEn : (dropEvent s).irqEn = s.irqEn := rfl
@[simp] theorem dropEvent_status : (dropEvent s).status = s.status := rfl
@[simp] theorem dropEvent_cfg : (dropEvent s).cfg = s.cfg := rfl
@[simp] theorem dropEvent_replies : (dropEvent s).port.replies = s.port.replies := rfl
@[simp] theorem dropEvent_pending : (dropEvent s).port.pending = s.port.pending.tail := rfl

@[simp] theorem resetBlock_x : (resetBlock s).x = State.reset.x := rfl
@[simp] theorem resetBlock_mem : (resetBlock s).mem = [] := rfl
@[simp] theorem resetBlock_cur : (resetBlock s).cur = 0 := rfl
@[simp] theorem resetBlock_irqEn : (resetBlock s).irqEn = false := rfl
@[simp] theorem resetBlock_status : (resetBlock s).status = State.reset.status := rfl
@[simp] theorem resetBlock_cfg : (resetBlock s).cfg = s.cfg := rfl
@[simp] theorem resetBlock_port : (resetBlock s).port = s.port := rfl

/-! ### Reads that name only x, MEM and the parameters -/

@[simp] theorem dropEvent_arg (i : Fin 8) : (dropEvent s).arg i = s.arg i := rfl
@[simp] theorem dropEvent_read (a n : Nat) : (dropEvent s).read a n = s.read a n := rfl

/-! ### Which agent moves -/

variable {s}

theorem nextTurn_host {op : HostOp} {rest : List Event} (h : s.port.pending = .host op :: rest) :
    nextTurn s = .host op (dropEvent s) := by simp [nextTurn, h]

theorem nextTurn_reset {rest : List Event} (h : s.port.pending = .reset :: rest) :
    nextTurn s = .reset (dropEvent s) := by simp [nextTurn, h]

theorem nextTurn_engine {rest : List Event} (h : s.port.pending = .engine :: rest) :
    nextTurn s = engineTurn (dropEvent s) := by simp [nextTurn, h]

/-- With nothing pending, taking the next event takes nothing. -/
theorem dropEvent_of_nil (h : s.port.pending = []) : dropEvent s = s := by
  cases s with
  | mk x irqEn status mem cur cfg port =>
    cases port with
    | mk pending replies =>
      have hp : pending = [] := h
      subst hp
      rfl

theorem nextTurn_nil (h : s.port.pending = []) : nextTurn s = engineTurn (dropEvent s) := by
  simp [nextTurn, h, dropEvent_of_nil h]

theorem engineTurn_busy (h : s.status.busy = true) : engineTurn s = .engine s := by simp [engineTurn, h]

theorem engineTurn_idle (h : s.status.busy = false) : engineTurn s = .idle s := by simp [engineTurn, h]

/-- Everything a step can be: the host's access, the reset, the engine's step, or nothing. -/
theorem step_cases (s : State) :
    (∃ op rest, s.port.pending = .host op :: rest ∧ step s = hostAccess (dropEvent s) op) ∨
    (∃ rest, s.port.pending = .reset :: rest ∧ step s = .next (resetBlock (dropEvent s))) ∨
    ((s.port.pending = [] ∨ ∃ rest, s.port.pending = .engine :: rest) ∧ s.status.busy = true ∧
      step s = runEngine (dropEvent s)) ∨
    ((s.port.pending = [] ∨ ∃ rest, s.port.pending = .engine :: rest) ∧ s.status.busy = false ∧
      step s = .next (dropEvent s)) := by
  have engine : nextTurn s = engineTurn (dropEvent s) →
      (s.status.busy = true ∧ step s = runEngine (dropEvent s)) ∨
      (s.status.busy = false ∧ step s = .next (dropEvent s)) := by
    intro h
    cases hb : s.status.busy with
    | true => exact .inl ⟨rfl, by rw [step, h, engineTurn_busy (by simpa using hb)]⟩
    | false => exact .inr ⟨rfl, by rw [step, h, engineTurn_idle (by simpa using hb)]⟩
  cases hp : s.port.pending with
  | nil =>
    obtain ⟨hb, hs⟩ | ⟨hb, hs⟩ := engine (nextTurn_nil hp)
    · exact .inr (.inr (.inl ⟨.inl rfl, hb, hs⟩))
    · exact .inr (.inr (.inr ⟨.inl rfl, hb, hs⟩))
  | cons ev rest =>
    cases ev with
    | host op => exact .inl ⟨op, rest, rfl, by rw [step, nextTurn_host hp]⟩
    | reset => exact .inr (.inl ⟨rest, rfl, by rw [step, nextTurn_reset hp]⟩)
    | engine =>
      obtain ⟨hb, hs⟩ | ⟨hb, hs⟩ := engine (nextTurn_engine hp)
      · exact .inr (.inr (.inl ⟨.inr ⟨rest, rfl⟩, hb, hs⟩))
      · exact .inr (.inr (.inr ⟨.inr ⟨rest, rfl⟩, hb, hs⟩))

end Sys2Proof.Machine
end

