-- ==== Sys2Proof/Laws/Commands.lean ====
section
/-! SUPPORT. The execution template (rules R102, R262) and the operand table (rule R103): what a command can do, said
once. -/

namespace Sys2Proof.Machine

variable {i : Instr} {s t : State} {body : State → Effect}

/-- Everything `runCommand` can answer: ARG_RANGE or ADDR_RANGE with nothing written, or the command's own effect. -/
theorem runCommand_cases (h : runCommand i s body = .next t) :
    (valueOk i s = false ∧ t = complete s (s.raise .argRange)) ∨
    (valueOk i s = true ∧ operandsOk i s = false ∧ t = complete s (s.raise .addrRange)) ∨
    (valueOk i s = true ∧ operandsOk i s = true ∧ t = complete s (body s)) := by
  simp only [runCommand, Host.Outcome.next.injEq] at h
  cases hv : valueOk i s with
  | false => exact .inl ⟨rfl, by simpa [hv] using h.symm⟩
  | true =>
    cases ho : operandsOk i s with
    | false => exact .inr (.inl ⟨rfl, rfl, by simpa [hv, ho] using h.symm⟩)
    | true => exact .inr (.inr ⟨rfl, rfl, by simpa [hv, ho] using h.symm⟩)

/-- `runCommand` always answers a next state. -/
theorem runCommand_next (i : Instr) (s : State) (body : State → Effect) : ∃ t, runCommand i s body = .next t :=
  ⟨_, rfl⟩

/-- Inside its ranges a command has its own effect. -/
theorem runCommand_ok (hv : valueOk i s = true) (ho : operandsOk i s = true) :
    runCommand i s body = .next (complete s (body s)) := by simp [runCommand, hv, ho]

/-- A value out of its range is ARG_RANGE, whatever the regions (rule R256). -/
theorem runCommand_argRange (hv : valueOk i s = false) :
    runCommand i s body = .next (complete s (s.raise .argRange)) := by simp [runCommand, hv]

/-- A region out of MEM is ADDR_RANGE (rule R254). -/
theorem runCommand_addrRange (hv : valueOk i s = true) (ho : operandsOk i s = false) :
    runCommand i s body = .next (complete s (s.raise .addrRange)) := by simp [runCommand, hv, ho]

/-- The operand check is the range check of every region (rule R102, phase 3). -/
theorem operandsOk_iff : operandsOk i s = true ↔ ∀ r ∈ operands i s, r.addr + r.len ≤ s.cfg.memBytes := by
  simp [operandsOk, inRange]

/-- What a completion keeps (rule R262). -/
theorem sameAround_complete (s : State) (e : Effect) : SameAround s (complete s e) :=
  ⟨rfl, by simp, rfl, rfl⟩

/-- A completion without error (rule R262). -/
theorem completesOk_complete {e : Effect} (h : e.err = none) : CompletesOk s (complete s e) :=
  ⟨by simp, by simp, by simp [h], by simp [h], rfl, sameAround_complete s e⟩

/-- A completion with an error (rule R262). -/
theorem completesErr_complete {e : Effect} {err : CmdError} (h : e.err = some err) :
    CompletesErr s (complete s e) err.code :=
  ⟨by simp, by simp, by simp [h], by simp [h], rfl, sameAround_complete s e⟩

end Sys2Proof.Machine
end

