-- ==== Sys2Proof/Laws/Exec.lean ====
section
/-! SUPPORT. What executing a command can do, said once for all seventeen: every invariant and every frame of `exec`
follows from `exec_cases`. -/

namespace Sys2Proof.Machine

variable {i : Instr} {s t : State}

/-- The effect of each command inside its ranges. -/
def effectOf : Instr → State → Effect
  | .nop => nopEffect
  | .fmul => fmulEffect
  | .fred => fredEffect
  | .padd => paddEffect
  | .pdbl => pdblEffect
  | .psmul => psmulEffect
  | .sha256c iv => sha256cEffect iv
  | .sha512c iv => sha512cEffect iv
  | .ccqr qa qb qc qd => ccqrEffect qa qb qc qd
  | .ccblk => ccblkEffect
  | .p13clamp => p13clampEffect
  | .p13acc => p13accEffect
  | .p13fin => p13finEffect
  | .mlstep sw => mlstepEffect sw
  | .x25519 => x25519Effect
  | .edsign => edsignEffect
  | .zeroize => zeroizeEffect

/-- Every command is the execution template over its own effect. -/
theorem exec_eq (i : Instr) (s : State) : exec i s = runCommand i s (effectOf i) := by cases i <;> rfl

/-- Every command answers a next state. -/
theorem exec_next (i : Instr) (s : State) : ∃ t, exec i s = .next t := ⟨_, exec_eq i s⟩

/-- The end of a command that ran inside its ranges: NOP, ZEROIZE, or one write inside a region that the operand table
calls an output, with no error but X25519's WEAK_PUBLIC_KEY. -/
inductive RanInRange : Instr → State → State → Prop where
  | nop (s : State) : RanInRange .nop s (complete s ⟨s.x, s.mem, none⟩)
  | zeroize (s : State) : RanInRange .zeroize s (complete s ⟨Vector.replicate 8 0, [], none⟩)
  | wrote {i : Instr} {s : State} {r : Region} {addr : Nat} {bs : List Byte} {err : Option CmdError}
      (region : r ∈ operands i s) (output : r.access ≠ .input) (low : r.addr ≤ addr)
      (high : addr + bs.length ≤ r.addr + r.len)
      (error : err = none ∨ (i = .x25519 ∧ err = some .weakPublicKey)) :
      RanInRange i s (complete s ⟨s.x, s.mem.write addr bs, err⟩)

/-- A command that stores one whole region without error. -/
theorem RanInRange.of_store {r : Region} {bs : List Byte} (region : r ∈ operands i s) (output : r.access ≠ .input)
    (len : bs.length = r.len) : RanInRange i s (complete s (s.store r.addr bs)) :=
  .wrote region output (le_refl _) (by omega) (.inl rfl)

/-- The effect of each command is NOP's, ZEROIZE's, or one write inside an output region. -/
theorem ranInRange_effectOf (i : Instr) (s : State) : RanInRange i s (complete s (effectOf i s)) := by
  cases i with
  | nop => exact .nop s
  | zeroize => exact .zeroize s
  | fmul => exact .of_store (r := ⟨.output, s.arg 0, 32⟩) (by simp [operands]) (by simp) (by simp)
  | fred => exact .of_store (r := ⟨.output, s.arg 0, 32⟩) (by simp [operands]) (by simp) (by simp)
  | padd => exact .of_store (r := ⟨.output, s.arg 0, 128⟩) (by simp [operands]) (by simp) (by simp)
  | pdbl => exact .of_store (r := ⟨.output, s.arg 0, 128⟩) (by simp [operands]) (by simp) (by simp)
  | psmul => exact .of_store (r := ⟨.output, s.arg 0, 128⟩) (by simp [operands]) (by simp) (by simp)
  | sha256c iv =>
    exact .of_store (r := ⟨if iv then .output else .inout, s.arg 0, 32⟩) (by simp [operands])
      (by cases iv <;> simp) (by simp)
  | sha512c iv =>
    exact .of_store (r := ⟨if iv then .output else .inout, s.arg 0, 64⟩) (by simp [operands])
      (by cases iv <;> simp) (by simp)
  | ccqr qa qb qc qd => exact .of_store (r := ⟨.inout, s.arg 0, 64⟩) (by simp [operands]) (by simp) (by simp)
  | ccblk =>
    exact .of_store (r := ⟨.output, s.arg 0, 64⟩) (by simp [operands]) (by simp)
      (chacha20block_length (by simp) (by simp) _)
  | p13clamp => exact .of_store (r := ⟨.output, s.arg 0, 16⟩) (by simp [operands]) (by simp) (by simp)
  | p13acc => exact .of_store (r := ⟨.inout, s.arg 0, 17⟩) (by simp [operands]) (by simp) (by simp)
  | p13fin => exact .of_store (r := ⟨.output, s.arg 0, 16⟩) (by simp [operands]) (by simp) (by simp)
  | mlstep sw =>
    exact .wrote (r := ⟨.inout, s.arg 0, 160⟩) (addr := s.arg 0 + 32) (by simp [operands]) (by simp) (by simp)
      (by rw [ladderBytes_length]; simp) (.inl rfl)
  | x25519 =>
    show RanInRange .x25519 s
      (complete s (s.storeSharedSecret (s.arg 0) (x25519 (s.read (s.arg 1) 32) (s.read (s.arg 2) 32))))
    have hlen := x25519_length (s.read (s.arg 1) 32) (s.read (s.arg 2) 32)
    generalize x25519 (s.read (s.arg 1) 32) (s.read (s.arg 2) 32) = out at hlen ⊢
    refine .wrote (r := ⟨.output, s.arg 0, 32⟩) (by simp [operands]) (by simp) (le_refl _) (by simp [hlen]) ?_
    by_cases hz : out = zeros 32
    · exact .inr ⟨rfl, if_pos hz⟩
    · exact .inl (if_neg hz)
  | edsign =>
    show RanInRange .edsign s
      (complete s (s.store (s.arg 0) (edSign (s.read (s.arg 1) 32) (s.read (s.arg 2) (s.arg 3)))))
    have hlen := edSign_length (s.read (s.arg 1) 32) (s.read (s.arg 2) (s.arg 3))
    generalize edSign (s.read (s.arg 1) 32) (s.read (s.arg 2) (s.arg 3)) = out at hlen ⊢
    exact .of_store (r := ⟨.output, s.arg 0, 64⟩) (by simp [operands]) (by simp) hlen

/-- Everything a command can do: ARG_RANGE, ADDR_RANGE, or its effect inside its ranges. -/
theorem exec_cases (h : exec i s = .next t) :
    (valueOk i s = false ∧ t = complete s (s.raise .argRange)) ∨
    (valueOk i s = true ∧ operandsOk i s = false ∧ t = complete s (s.raise .addrRange)) ∨
    (valueOk i s = true ∧ operandsOk i s = true ∧ RanInRange i s t) := by
  rw [exec_eq] at h
  obtain h' | h' | ⟨hv, ho, rfl⟩ := runCommand_cases h
  · exact .inl h'
  · exact .inr (.inl h')
  · exact .inr (.inr ⟨hv, ho, ranInRange_effectOf i s⟩)

end Sys2Proof.Machine
end

