-- ==== Sys2Proof/Laws/PerInstr.lean ====
section
/-! SUPPORT. The family OpcodeByte (LAWS.json), one lemma per constructor of `Instr`: bits 7:0 of a command's word are
its opcode (rule R90), and the must-be-zero bits 31:24 that all three formats share are zero (rules R91 to R93). -/

namespace Sys2Proof.Laws.OpcodeByte

/-- The opcode stands in bits 7:0 and bits 31:24 are zero. -/
def Statement (i : Instr) : Prop := bitsOf (encode i) 7 0 = opcodeOf i ∧ bitsOf (encode i) 31 24 = 0

theorem nop : Statement .nop := by simp [Statement, bitsOf, encode, opcodeOf, immediatesOf]
theorem fmul : Statement .fmul := by simp [Statement, bitsOf, encode, opcodeOf, immediatesOf]
theorem fred : Statement .fred := by simp [Statement, bitsOf, encode, opcodeOf, immediatesOf]
theorem padd : Statement .padd := by simp [Statement, bitsOf, encode, opcodeOf, immediatesOf]
theorem pdbl : Statement .pdbl := by simp [Statement, bitsOf, encode, opcodeOf, immediatesOf]
theorem psmul : Statement .psmul := by simp [Statement, bitsOf, encode, opcodeOf, immediatesOf]

theorem sha256c (iv : Bool) : Statement (.sha256c iv) := by
  cases iv <;> simp [Statement, bitsOf, encode, opcodeOf, immediatesOf]

theorem sha512c (iv : Bool) : Statement (.sha512c iv) := by
  cases iv <;> simp [Statement, bitsOf, encode, opcodeOf, immediatesOf]

theorem ccqr (qa qb qc qd : BitVec 4) : Statement (.ccqr qa qb qc qd) := by
  have ha := qa.isLt
  have hb := qb.isLt
  have hc := qc.isLt
  have hd := qd.isLt
  simp only [Statement, bitsOf, encode, opcodeOf, immediatesOf, BitVec.toNat_ofNat]
  omega

theorem ccblk : Statement .ccblk := by simp [Statement, bitsOf, encode, opcodeOf, immediatesOf]
theorem p13clamp : Statement .p13clamp := by simp [Statement, bitsOf, encode, opcodeOf, immediatesOf]
theorem p13acc : Statement .p13acc := by simp [Statement, bitsOf, encode, opcodeOf, immediatesOf]
theorem p13fin : Statement .p13fin := by simp [Statement, bitsOf, encode, opcodeOf, immediatesOf]

theorem mlstep (sw : Bool) : Statement (.mlstep sw) := by
  cases sw <;> simp [Statement, bitsOf, encode, opcodeOf, immediatesOf]

theorem x25519 : Statement .x25519 := by simp [Statement, bitsOf, encode, opcodeOf, immediatesOf]
theorem edsign : Statement .edsign := by simp [Statement, bitsOf, encode, opcodeOf, immediatesOf]
theorem zeroize : Statement .zeroize := by simp [Statement, bitsOf, encode, opcodeOf, immediatesOf]

end Sys2Proof.Laws.OpcodeByte
end

