-- ==== Sys2Proof/Machine/Script.lean ====
section
/-! DEFINITION. Host scripts (rules R110 to R112) as data, and the events each line stands for. A script says what the
host does; the index into it is the host's, not the block's (rule R23). -/

namespace Sys2Proof.Machine

/-- The operand of a `cmd` line (rule R111): a command, or the raw word of `word <v>`. -/
inductive CommandText where
  | command (i : Instr)
  | word (v : Word)
  deriving DecidableEq, Repr

/-- The word a `cmd` line writes to CMD (rule R111). -/
def CommandText.encoding : CommandText → Word
  | .command i => encode i
  | .word v => v

/-- A line of rule R110, or a pseudo-instruction of rule R112. `fsq` and `x25519base` carry the register value that
their expansion names; `raw` is a host action written out (95_test_vectors.md, program P3). -/
inductive ScriptLine where
  | wr (i : Fin 8) (v : Word)
  | put (addr : Nat) (bytes : List Byte)
  | get (addr n : Nat)
  | cmd (c : CommandText)
  | poll
  | wait
  | ack
  | clrerr
  | clrherr
  | irqen (on : Bool)
  | srst
  | run (c : CommandText)
  | args (values : List Word)
  | fsq (a1 : Word)
  | x25519base (a2 : Word)
  | raw (op : HostOp)
  deriving DecidableEq, Repr

/-- `put` (rule R110): one byte write for each byte. -/
def putEvents (addr : Nat) : List Byte → List Event
  | [] => []
  | b :: bs => .host (.memWrite addr (.b1 b)) :: putEvents (addr + 1) bs

/-- `get` (rule R110): one byte read for each byte. -/
def getEvents (addr : Nat) : Nat → List Event
  | 0 => []
  | n + 1 => .host (.memRead addr .w1) :: getEvents (addr + 1) n

/-- `wr a<i>, <v>` (rule R110). -/
def wrEvent (i : Nat) (v : Word) : Event := .host (.write32 (0x020 + 4 * i) v)

/-- `cmd` (rule R110). -/
def cmdEvent (c : CommandText) : Event := .host (.write32 0x010 c.encoding)

/-- `wait` (rule R110), under the fairness of rule R263: the engine has its turn and the poll that then reads BUSY = 0 is
the last. Earlier polls change nothing (rule R74, log entry 8). -/
def waitEvents : List Event := [.engine, .host (.read32 0x00C)]

/-- `args` (rule R112) from register i on. -/
def argsEvents (i : Nat) : List Word → List Event
  | [] => []
  | v :: vs => wrEvent i v :: argsEvents (i + 1) vs

/-- The events of one line (rules R110, R112). -/
def ScriptLine.events : ScriptLine → List Event
  | .wr i v => [wrEvent i v]
  | .put addr bs => putEvents addr bs
  | .get addr n => getEvents addr n
  | .cmd c => [cmdEvent c]
  | .poll => [.host (.read32 0x00C)]
  | .wait => waitEvents
  | .ack => [.host (.write32 0x00C 0x00000002)]
  | .clrerr => [.host (.write32 0x00C 0x00000004)]
  | .clrherr => [.host (.write32 0x00C 0x00000008)]
  | .irqen on => [.host (.write32 0x008 (if on then 1 else 0))]
  | .srst => [.host (.write32 0x008 0x00000002)]
  | .run c => cmdEvent c :: waitEvents
  | .args vs => argsEvents 0 vs
  | .fsq a1 => [wrEvent 2 a1, cmdEvent (.command .fmul)]
  | .x25519base a2 => putEvents a2.toNat ((9 : Byte) :: zeros 31) ++ [cmdEvent (.command .x25519)]
  | .raw op => [.host op]

/-- What rules R97, R110 and R112 ask of a line: `args` gives one to four values, and a command is legal (`word` is
there to write an illegal one). -/
def ScriptLine.wf : ScriptLine → Bool
  | .args vs => 1 ≤ vs.length && vs.length ≤ 4
  | .cmd (.command i) | .run (.command i) => i.wf
  | .cmd (.word _) | .run (.word _) | .wr _ _ | .put _ _ | .get _ _ | .poll | .wait | .ack | .clrerr | .clrherr
  | .irqen _ | .srst | .fsq _ | .x25519base _ | .raw _ => true

/-! ### The text of a line (rules R110 to R112): one spelling of each -/

/-- `<bytes>` of rule R110: two hexadecimal digits a byte, element 0 first. -/
def hexText (bs : List Byte) : String :=
  bs.foldr (fun b t => String.singleton (Nat.digitChar (b.toNat / 16)) ++
    String.singleton (Nat.digitChar (b.toNat % 16)) ++ t) ""

/-- The command syntax of rule R111. -/
def commandText : Instr → String
  | .nop => "nop"
  | .fmul => "fmul"
  | .fred => "fred"
  | .padd => "padd"
  | .pdbl => "pdbl"
  | .psmul => "psmul"
  | .sha256c iv => if iv then "sha256c iv" else "sha256c"
  | .sha512c iv => if iv then "sha512c iv" else "sha512c"
  | .ccqr qa qb qc qd =>
    "ccqr " ++ String.intercalate ", " ([qa, qb, qc, qd].map fun q => toString q.toNat)
  | .ccblk => "ccblk"
  | .p13clamp => "p13clamp"
  | .p13acc => "p13acc"
  | .p13fin => "p13fin"
  | .mlstep sw => if sw then "mlstep 1" else "mlstep 0"
  | .x25519 => "x25519"
  | .edsign => "edsign"
  | .zeroize => "zeroize"

/-- The operand of a `cmd` or `run` line (rule R111). -/
def CommandText.text : CommandText → String
  | .command i => commandText i
  | .word v => "word " ++ toString v.toNat

/-- A host action written out (rule R70). -/
def HostOp.text : HostOp → String
  | .read32 off => "HostRead32(" ++ toString off ++ ")"
  | .write32 off v => "HostWrite32(" ++ toString off ++ ", " ++ toString v.toNat ++ ")"
  | .memRead a n => "HostMemRead(" ++ toString a ++ ", " ++ toString n.bytes ++ ")"
  | .memWrite a v =>
    "HostMemWrite(" ++ toString a ++ ", " ++ toString v.width.bytes ++ ", " ++ toString v.value ++ ")"

/-- The line as rules R110 and R112 write it, numbers in decimal. -/
def ScriptLine.text : ScriptLine → String
  | .wr i v => "wr a" ++ toString i.val ++ ", " ++ toString v.toNat
  | .put addr bs => "put " ++ toString addr ++ ", " ++ hexText bs
  | .get addr n => "get " ++ toString addr ++ ", " ++ toString n
  | .cmd c => "cmd " ++ c.text
  | .poll => "poll"
  | .wait => "wait"
  | .ack => "ack"
  | .clrerr => "clrerr"
  | .clrherr => "clrherr"
  | .irqen on => if on then "irqen 1" else "irqen 0"
  | .srst => "srst"
  | .run c => "run " ++ c.text
  | .args vs => "args " ++ String.intercalate ", " (vs.map fun v => toString v.toNat)
  | .fsq _ => "fsq"
  | .x25519base _ => "x25519base"
  | .raw op => op.text

/-- A state with a script's events still to come. -/
def State.withScript (s : State) (lines : List ScriptLine) : State :=
  { s with port := { s.port with pending := s.port.pending ++ lines.flatMap ScriptLine.events } }

end Sys2Proof.Machine
end

