-- ==== Sys2Proof/Tests/Slice0.lean ====
section
/-! SUPPORT. The model's own tests: the well-formedness checks, decoding of written-out words, one step on a small state
per command, and for every statement with hypotheses a state that meets them (`witness_…`). Expected results are
those of 95_test_vectors.md, whose section stands at each test. The theorems are checked one after the other (Elab.async): the
heavy ones, checked beside the rest, would each hold a thread's stack until the others are done. -/

namespace Sys2Proof.Tests

open Sys2Proof.Machine

set_option Elab.async false

/-! ### Helpers -/

/-- A reset machine with the given x[0] … x[3] and MEM. -/
def machine (x0 x1 x2 x3 : Nat) (m : Memory) : State :=
  { State.reset with x := #v[.ofNat 32 x0, .ofNat 32 x1, .ofNat 32 x2, .ofNat 32 x3, 0, 0, 0, 0], mem := m }

/-- MEM with a byte string at an address. -/
def put (m : Memory) (addr : Nat) (bs : List Byte) : Memory := m.write addr bs

/-- MEM with a 32-byte little-endian integer at an address. -/
def putInt (m : Memory) (addr v : Nat) : Memory := m.write addr (toLE v 32)

/-- The state after a command. -/
def after (i : Instr) (s : State) : State := stateAfter s (exec i s)

/-- STATUS as the host reads it. -/
def statusAfter (i : Instr) (s : State) : Word := (after i s).status.toWord

/-- The 32-byte little-endian integer at an address after a command. -/
def intAfter (i : Instr) (s : State) (addr : Nat) : Nat := (after i s).readLE addr 32

/-! ### Well-formedness: each check refuses an ill-formed term -/

theorem test_ccqr_wf : (Instr.ccqr 0 4 8 12).wf = true := by decide
theorem test_ccqr_refuses_qa_qb : (Instr.ccqr 1 1 2 3).wf = false := by decide
theorem test_ccqr_refuses_qa_qc : (Instr.ccqr 1 0 1 3).wf = false := by decide
theorem test_ccqr_refuses_qa_qd : (Instr.ccqr 1 0 2 1).wf = false := by decide
theorem test_ccqr_refuses_qb_qc : (Instr.ccqr 0 2 2 3).wf = false := by decide
theorem test_ccqr_refuses_qb_qd : (Instr.ccqr 0 2 3 2).wf = false := by decide
theorem test_ccqr_refuses_qc_qd : (Instr.ccqr 0 1 15 15).wf = false := by decide

/-- Rule R7: a multiple of 4, at least 1024, at most 65536. -/
theorem test_config_legal :
    Config.default.legal = true ∧ (Config.mk 1024 (.other 1) (.other 2)).legal = true ∧
    (Config.mk 65536 .canonical .canonical).legal = true ∧ (Config.mk 1026 .canonical .canonical).legal = false ∧
    (Config.mk 1020 .canonical .canonical).legal = false ∧
    (Config.mk 65540 .canonical .canonical).legal = false := by decide

/-- Rules R97, R112: `args` has one to four values, a command is legal, a raw word need not be. -/
theorem test_script_line_wf :
    (ScriptLine.args []).wf = false ∧ (ScriptLine.args [1, 2, 3, 4, 5]).wf = false ∧
    (ScriptLine.cmd (.command (.ccqr 4 4 0 0))).wf = false ∧ (ScriptLine.run (.command (.ccqr 4 4 0 0))).wf = false ∧
    (ScriptLine.cmd (.word 0x00004430)).wf = true := by decide

/-! ### Decoding: words written out from rules R91 to R94 and R111, and section 3.8 -/

theorem test_decode_field : decode 0x00000001 = .ok .fmul ∧ decode 0x00000002 = .ok .fred := by decide
theorem test_decode_edwards :
    decode 0x00000010 = .ok .padd ∧ decode 0x00000011 = .ok .pdbl ∧ decode 0x00000012 = .ok .psmul := by decide
theorem test_decode_sha2 :
    decode 0x00000020 = .ok (.sha256c false) ∧ decode 0x00000120 = .ok (.sha256c true) ∧
    decode 0x00000021 = .ok (.sha512c false) ∧ decode 0x00000121 = .ok (.sha512c true) := by decide
theorem test_decode_chacha :
    decode 0x00321030 = .ok (.ccqr 0 1 2 3) ∧ decode 0x00FB7330 = .ok (.ccqr 3 7 11 15) ∧
    decode 0x00D87230 = .ok (.ccqr 2 7 8 13) ∧ decode 0x00000031 = .ok .ccblk := by decide
theorem test_decode_poly :
    decode 0x00000040 = .ok .p13clamp ∧ decode 0x00000041 = .ok .p13acc ∧ decode 0x00000042 = .ok .p13fin := by decide
theorem test_decode_x25519 :
    decode 0x00000050 = .ok (.mlstep false) ∧ decode 0x00000150 = .ok (.mlstep true) ∧
    decode 0x00000051 = .ok .x25519 := by decide
theorem test_decode_ed25519 : decode 0x00000060 = .ok .edsign := by decide
theorem test_decode_system : decode 0x00000000 = .ok .nop ∧ decode 0x000000FF = .ok .zeroize := by decide
theorem test_decode_illegal :
    decode 0x00000101 = .error .reservedBits ∧ decode 0x00000220 = .error .reservedBits ∧
    decode 0x00000030 = .error .equalIndices ∧ decode 0x00321130 = .error .equalIndices ∧
    decode 0x01321030 = .error .reservedBits ∧ decode 0x000001FF = .error .reservedBits ∧
    decode 0x80000000 = .error .reservedBits ∧ decode 0x000000FE = .error (.undefinedOpcode 0xFE) ∧
    decode 0xFFFFFFFF = .error .reservedBits := by decide
theorem test_decodeTableWord :
    decodeTableWord 32 0x00000120 = some (.sha256c true) ∧ decodeTableWord 32 0x00C84030 = some (.ccqr 0 4 8 12) ∧
    decodeTableWord 32 0x00000030 = none := by decide
theorem test_encode_ccqr : encode (.ccqr 0 4 8 12) = 0x00C84030 := by decide

/-! ### One step per command -/

/-- Rule R241, example. -/
theorem test_nop : statusAfter .nop (machine 1 2 3 4 [(5, 6)]) = 0x00000002 ∧
    (after .nop (machine 1 2 3 4 [(5, 6)])).mem = [(5, 6)] := by decide +kernel

/-- Section 3.1: container 2^256 - 1 (element 37) times 2. -/
theorem test_fmul : intAfter .fmul (machine 64 0 32 0 (putInt (putInt [] 0 (2 ^ 256 - 1)) 32 2)) 64 = 74 := by
  decide +kernel

/-- Section 3.1: an in-place square of 2^255 - 1 (element 18). -/
theorem test_fmul_in_place : (after .fmul (machine 0 0 0 0 (putInt [] 0 (2 ^ 255 - 1)))).mem = [(0, 0x44), (1, 0x01)] := by
  decide +kernel

/-- Section 3.1. -/
theorem test_fred_two_subtractions : intAfter .fred (machine 64 0 0 0 (putInt [] 0 (2 ^ 256 - 1))) 64 = 37 := by
  decide +kernel

theorem test_fred_of_p : intAfter .fred (machine 0 0 0 0 (putInt [] 0 (2 ^ 255 - 19))) 0 = 0 := by decide +kernel

/-- Section 3.2: the tuple of B + B. -/
theorem test_padd_formula : padd basePoint basePoint =
    ⟨0x3b6f8891960f6ad45776d1e1213c1bd9de44f888163a76921515e6cf9f3fd67e,
      0x336d9ece4cdb30925921f40f14dab827d6e156675107378db6d34c9a874a007e,
      0x59e4ea1a52a20ea2fd9cb81712f675b450b27bff31b598ba722d5b0bf61c8608,
      0x1f6e08da2d298daafc6ea6fedd5e07c172749500483d139bc532c7e392cad989⟩ := by decide +kernel

/-- Section 3.2: O + O is (0, 4, 4, 0). -/
theorem test_padd : (after .padd (machine 128 0 0 0 [(32, 1), (64, 1)])).mem =
    [(32, 1), (64, 1), (160, 4), (192, 4)] := by decide +kernel

/-- Section 3.2: the tuple of the double of B. -/
theorem test_pdbl_formula : pdbl basePoint =
    ⟨0x31241ddb9a7c254aea224b87b7b0f909886ec1ddfa71625b7aba864c18300a57,
      0x3324984c6cc933db69b782fc3ac951f60a47aa662bbe321c924b2cd95e2d7fd7,
      0x6986c5796b577c574098d1fa3b426292ebd36100339299d16374a93d0278de6b,
      0x18247dc974b59c9540e4564048a87e0fa362dabfedf0bb190eb34e071b4d4999⟩ := by decide +kernel

/-- Section 3.2: the double of O is (0, p - 1, p - 1, 0). -/
theorem test_pdbl :
    let t := after .pdbl (machine 128 0 0 0 [(32, 1), (64, 1)])
    [t.readLE 128 32, t.readLE 160 32, t.readLE 192 32, t.readLE 224 32] = [0, p - 1, p - 1, 0] := by decide +kernel

/-- Section 3.2: the tuple of 2·B. -/
theorem test_psmul_formula : psmul 2 basePoint =
    ⟨0x6f88573eb4fd5a1f904d8499c02605186dcb93aeeced917ba808e9c76e0fac7b,
      0x5c78d91ed2eb2a0d8d50d8ecfc2e5df682353b2783a5d9b9204f71695fa70dd1,
      0x3cb84a4786f6a734defc5e69d2f869687ce64998ae7d06c29b6e86f79e222746,
      0x528d80ec340360be9dfc2d877dbc26411628b18e1ca2a708d8c407f738a87c9b⟩ := by decide +kernel

/-- Section 3.2: scalar 0; the tuple is (0, y, y, 0), whatever the point. -/
theorem test_psmul : (after .psmul (machine 128 0 0 0 [])).readLE 160 32 =
    0x0ad4608d11e44c136c66368c37687ab127de4125944b57b5ea0e2065df20f294 := by decide +kernel

/-- Rules R161 and R165: one constant of each place in a row, and how many there are. -/
theorem test_round_constants :
    K256.length = 64 ∧ K256.take 4 = [0x428a2f98, 0x71374491, 0xb5c0fbcf, 0xe9b5dba5] ∧ K256.getLast? = some 0xc67178f2 ∧
    K512.length = 80 ∧ K512.take 2 = [0x428a2f98d728ae22, 0x7137449123ef65cd] ∧
    K512.getLast? = some 0x6c44198c4a475817 := by decide +kernel

/-- Section 2.1: the block of "abc" with iv = 1; the first and last word of the digest. -/
theorem test_sha256c_iv :
    let t := after (.sha256c true) (machine 64 0 0 0 (put [] 0 ([0x61, 0x62, 0x63, 0x80] ++ zeros 59 ++ [0x18])))
    t.read 64 4 = [0xba, 0x78, 0x16, 0xbf] ∧ t.read 92 4 = [0xf2, 0x00, 0x15, 0xad] := by decide +kernel

/-- Section 3.3: a zero state and a zero block with iv = 0. -/
theorem test_sha256c_state : (after (.sha256c false) (machine 0 64 0 0 [])).read 0 8 =
    [0x7c, 0xa5, 0x16, 0x14, 0x42, 0x5c, 0x3b, 0xa8] := by decide +kernel

/-- Section 3.3: a zero state and a zero block with iv = 0. -/
theorem test_sha512c_state : (after (.sha512c false) (machine 0 64 0 0 [])).read 0 8 =
    [0xad, 0x3a, 0x5d, 0xa8, 0x38, 0xeb, 0xf8, 0x30] := by decide +kernel

/-- Rule R169, example: "abc" with iv = 1. -/
theorem test_sha512c_iv :
    (after (.sha512c true) (machine 128 0 0 0 (put [] 0 ([0x61, 0x62, 0x63, 0x80] ++ zeros 123 ++ [0x18])))).read 128 8 =
      [0xdd, 0xaf, 0x35, 0xa1, 0x93, 0x61, 0x7a, 0xba] := by decide +kernel

/-- Section 3.4: qr of four words of ones, in descending index order; the other words stay. -/
theorem test_ccqr :
    let ones : List Byte := List.replicate 4 0xff
    let t := after (.ccqr 13 8 7 2) (machine 0 0 0 0 (put (put (put (put (put [] 4 [1, 2, 3, 4]) 8 ones) 28 ones) 32 ones) 52 ones))
    wordsLE 16 (t.read 0 64) =
      [0, 0x04030201, 0x010ffdf0, 0, 0, 0, 0, 0x0110fdef, 0x88790878, 0, 0, 0, 0, 0xf0000ffd, 0, 0] := by decide +kernel

/-- Section 3.4: all-zero key and nonce, counter at its maximum. -/
theorem test_ccblk : (after .ccblk (machine 64 0 32 0xFFFFFFFF [])).read 64 8 =
    [0xac, 0xe4, 0xcd, 0x09, 0xe2, 0x94, 0xd1, 0x91] := by decide +kernel

/-- Section 3.5. -/
theorem test_p13clamp : (after .p13clamp (machine 32 0 0 0 (put [] 0 (List.replicate 16 0xff)))).readLE 32 16 =
    0x0ffffffc0ffffffc0ffffffc0fffffff := by decide +kernel

/-- Section 3.5: a non-canonical accumulator, r = clamp(ff…ff), a full block. -/
theorem test_p13acc :
    (after .p13acc (machine 0 32 64 16 (put (put (put [] 0 (List.replicate 17 0xff)) 32
      (toLE 0x0ffffffc0ffffffc0ffffffc0fffffff 16)) 64 (List.replicate 16 0xff)))).readLE 0 17 =
      0x207fffb1207fffb1207fffb1207fffed6 := by decide +kernel

/-- Section 3.5: x[3] = 0 is ARG_RANGE even with an address out of MEM, the accumulator unchanged. -/
theorem test_p13acc_arg_range : statusAfter .p13acc (machine 0xFFFFFFFF 0 0 0 []) = 0x00000206 := by decide +kernel

/-- Section 3.5: the accumulator 2^136 - 1 is reduced first; the carry out of 128 bits is dropped. -/
theorem test_p13fin : (after .p13fin (machine 64 0 32 0 (put [] 0 (List.replicate 17 0xff)))).readLE 64 16 = 0x13f := by
  decide +kernel

theorem test_p13fin_carry :
    (after .p13fin (machine 64 0 32 0 (put (put [] 0 (toLE (2 ^ 130 - 6) 17)) 32 (List.replicate 16 0xff)))).readLE 64 16 =
      LE (0xf9 :: List.replicate 15 0xff) := by decide +kernel

/-- Section 3.6: the record (9, 1, 0, 9, 1). -/
def ladderMem : Memory := [(0, 9), (32, 1), (96, 9), (128, 1)]

theorem test_mlstep_0 :
    let t := after (.mlstep false) (machine 0 0 0 0 ladderMem)
    [t.readLE 0 32, t.readLE 32 32, t.readLE 64 32, t.readLE 96 32, t.readLE 128 32] = [9, 1, 0, 324, 36] := by
  decide +kernel

theorem test_mlstep_1 :
    let t := after (.mlstep true) (machine 0 0 0 0 ladderMem)
    [t.readLE 0 32, t.readLE 32 32, t.readLE 64 32, t.readLE 96 32, t.readLE 128 32] =
      [9, 6400, 157681440, 324, 36] := by decide +kernel

/-- Section 3.6: the scalar 0 (clamped to 2^254) and u = 9. -/
theorem test_x25519 : (after .x25519 (machine 64 0 32 0 [(32, 9)])).read 64 8 =
    [0x2f, 0xe5, 0x7d, 0xa3, 0x47, 0xcd, 0x62, 0x43] := by decide +kernel

/-- Section 3.6: the weak peer key u = 0 completes with WEAK_PUBLIC_KEY and zeros over the old output. -/
theorem test_x25519_weak :
    let t := after .x25519 (machine 64 0 32 0 [(64, 1), (95, 2)])
    t.status.toWord = 0x00001206 ∧ t.mem = [] := by decide +kernel

/-- Section 3.7: the seed 0 and the message "abc". -/
theorem test_edsign :
    let t := after .edsign (machine 64 0 32 3 [(32, 0x61), (33, 0x62), (34, 0x63)])
    t.read 64 4 = [0x88, 0x5d, 0xfb, 0x07] ∧ t.read 124 4 = [0x61, 0x75, 0x73, 0x08] := by decide +kernel

/-- Rule R242: MEM and x are zero, IRQ_EN and HERR stay. -/
theorem test_zeroize :
    let s := { machine 1 2 3 4 [(0, 1), (4095, 2)] with
      irqEn := true, status := { State.reset.status with herr := true } }
    let t := after .zeroize s
    t.mem = [] ∧ t.x = State.reset.x ∧ t.status.toWord = 0x0000000A ∧ t.irqEn = true := by decide +kernel

/-! ### The host port, the engine and reset: one event each (section 3.10, rule R60) -/

/-- A reset machine with a word latched and BUSY = 1. -/
def busyWith (w : Word) : State :=
  { State.reset with cur := w, status := { State.reset.status with busy := true } }

/-- A reset machine with one event pending. -/
def facing (s : State) (e : Event) : State := { s with port := { s.port with pending := [e] } }

/-- STATUS after one step. -/
def statusAfterStep (s : State) : Word := (stateAfter s (step s)).status.toWord

theorem test_cmd_write_accepted : statusAfterStep (facing State.reset (.host (.write32 0x010 0x00000000))) = 0x00000001 := by
  decide +kernel
theorem test_arg_read_while_busy :
    let s := facing (busyWith 0) (.host (.read32 0x020))
    statusAfterStep s = 0x00000009 ∧ (stateAfter s (step s)).port.replies = [0] := by decide +kernel
theorem test_engine_step_illegal : statusAfterStep (busyWith 0x00000003) = 0x00000106 := by decide +kernel
theorem test_withFetchWord :
    statusAfterStep (State.reset.withFetchWord 32 0x00000001) = 0x00000002 ∧
    statusAfterStep ((after .fmul (machine 4065 0 0 0 [])).withFetchWord 32 0x00000101) = 0x00000106 := by
  decide +kernel
theorem test_mem_read_out_of_range :
    statusAfterStep (facing State.reset (.host (.memRead 4095 .w2))) = 0x00000008 := by decide +kernel
theorem test_mem_write_little_endian :
    let s := facing State.reset (.host (.memWrite 4094 (.b2 0xBEEF)))
    (stateAfter s (step s)).mem = [(4094, 0xEF), (4095, 0xBE)] := by decide +kernel
theorem test_soft_reset :
    let s := facing { busyWith 1 with irqEn := true, mem := [(0, 1)] } (.host (.write32 0x008 0x00000003))
    (stateAfter s (step s)) = State.reset := by decide +kernel
theorem test_offset_space :
    readAtOffset 0x00C .w4 = some (.read32 0x00C) ∧ readAtOffset 0x10005 .w2 = some (.memRead 5 .w2) ∧
    readAtOffset 0x00C .w1 = none ∧ writeAtOffset 0x1FFFF (.b1 7) = some (.memWrite 0xFFFF (.b1 7)) := by decide +kernel
/-- Rule R111, example, and rule R110. -/
theorem test_script_text_and_events :
    (ScriptLine.cmd (.command (.ccqr 0 4 8 12))).text = "cmd ccqr 0, 4, 8, 12" ∧
    (ScriptLine.cmd (.command (.ccqr 0 4 8 12))).events = [.host (.write32 0x010 0x00C84030)] := by decide +kernel

/-! ### Witnesses: for each statement with hypotheses, what meets them -/

/-- The regions, given by register and length, lie inside a MEM in canonical form. -/
abbrev Inside (s : State) (regions : List (Fin 8 × Nat)) : Prop :=
  s.mem.wf ∧ ∀ r ∈ regions, s.arg r.1 + r.2 ≤ s.cfg.memBytes

/-- The region of `n` bytes at the address in x[k] is one byte out of MEM or more. -/
abbrev Outside (s : State) (k : Fin 8) (n : Nat) : Prop := s.cfg.memBytes < s.arg k + n

/-- The word has the opcode and a non-zero must-be-zero field from bit `lo` up. -/
abbrev HasReservedBits (w : Word) (op lo : Nat) : Prop := bitsOf w 7 0 = op ∧ bitsOf w 31 lo ≠ 0

theorem witness_DecodeAndEncodeAgree :
    (Instr.ccqr 0 4 8 12).wf = true ∧ decode 0x00C84030 = .ok (.ccqr 0 4 8 12) := by decide

theorem witness_StepTakesTheNextEvent :
    (facing State.reset (.host (.read32 0))).port.pending = .host (.read32 0) :: [] ∧
    State.reset.status.busy = false ∧ State.reset.port.pending = [] ∧
    (facing State.reset .engine).status.busy = false ∧ (facing State.reset .engine).port.pending = .engine :: [] := by
  decide

theorem engineMoves_busyWith (w : Word) : EngineMoves (busyWith w) := ⟨rfl, .inl rfl⟩

theorem engineMoves_facing (w : Word) : EngineMoves (facing (busyWith w) .engine) := ⟨rfl, .inr ⟨[], rfl⟩⟩

theorem witness_EngineRunsTheLatchedCommand :
    EngineMoves (facing (busyWith 0x00000042) .engine) ∧ decode (busyWith 0x00000042).cur = .ok .p13fin :=
  ⟨engineMoves_facing _, by decide⟩

theorem witness_IllegalWordRaisesIllegalCmd :
    EngineMoves (busyWith 0x00000003) ∧ decode (busyWith 0x00000003).cur = .error (.undefinedOpcode 3) :=
  ⟨engineMoves_busyWith _, by decide⟩

theorem witness_EngineAlwaysCompletes : EngineMoves (busyWith 0xFFFFFFFF) := engineMoves_busyWith _

theorem witness_IdAndCfgAreConstant :
    State.reset.cfg.legal = true ∧ (Config.mk 65536 (.other 0) .canonical).legal = true := by decide

theorem witness_CtrlReadsAndWrites :
    (0x00000002 : Word).getLsbD 1 = true ∧ (0x00000001 : Word).getLsbD 1 = false := by decide

theorem witness_CmdAcceptance :
    State.reset.status.busy = false ∧ State.reset.status.err = false ∧ (busyWith 0).status.busy = true ∧
    (after .fmul (machine 4065 0 0 0 [])).status.err = true := by decide +kernel

theorem witness_ArgumentRegisterAccess :
    (busyWith 0).status.busy = true ∧ State.reset.status.busy = false ∧ (7 : Fin 8) ≠ 0 ∧
    0x008 ∈ [0x000, 0x004, 0x008] := by decide

theorem witness_ReservedOffsetsAndBits :
    (∀ off ∈ [0x014, 0x01C, 0x040, 0xFFFC],
      off % 4 = 0 ∧ ((0x014 ≤ off ∧ off < 0x020) ∨ (0x040 ≤ off ∧ off ≤ 0xFFFC))) ∧
    (0x00000001 : Word).getLsbD 0 = (0xFFFFFFFD : Word).getLsbD 0 ∧
    (0x00000001 : Word).getLsbD 1 = (0xFFFFFFFD : Word).getLsbD 1 ∧
    (0x0000000E : Word).getLsbD 1 = (0xFFFFFFFF : Word).getLsbD 1 ∧
    (0x0000000E : Word).getLsbD 2 = (0xFFFFFFFF : Word).getLsbD 2 ∧
    (0x0000000E : Word).getLsbD 3 = (0xFFFFFFFF : Word).getLsbD 3 := by decide

theorem witness_RegisterPortBounds :
    (0x00D % 4 ≠ 0 ∨ 0xFFFC < 0x00D) ∧ (0x10000 % 4 ≠ 0 ∨ 0xFFFC < 0x10000) ∧ 0x000 % 4 = 0 ∧ 0xFFFC % 4 = 0 ∧
    0xFFFC ≤ 0xFFFC := by decide

theorem witness_MemWindowCarriedOut :
    State.reset.mem.wf ∧ State.reset.status.busy = false ∧ 4092 + MemWidth.w4.bytes ≤ State.reset.cfg.memBytes ∧
    4095 + (MemData.b1 7).width.bytes ≤ State.reset.cfg.memBytes := by decide

theorem witness_MemWindowRefused :
    (busyWith 0).status.busy = true ∧ State.reset.cfg.memBytes < 4093 + MemWidth.w4.bytes ∧
    State.reset.cfg.memBytes < 4096 + (MemData.b1 7).width.bytes := by decide

theorem witness_HostReadsHaveNoSideEffect :
    (∃ t, hostAccess (busyWith 0) (.read32 0x03C) = .next t ∧ t.status.herr ≠ (busyWith 0).status.herr) ∧
    (∃ t, hostAccess (busyWith 0) (.memRead 0 .w4) = .next t ∧ t.status.herr ≠ (busyWith 0).status.herr) ∧
    (∃ t, hostAccess State.reset (.memRead 4096 .w1) = .next t ∧ t.status.herr ≠ State.reset.status.herr) :=
  ⟨⟨_, rfl, by decide⟩, ⟨_, rfl, by decide⟩, ⟨_, rfl, by decide⟩⟩

theorem witness_InterruptLine :
    EngineMoves (busyWith 0) ∧ (∃ t, step (busyWith 0) = .next t) ∧
    (∃ t, hostWrite32 State.reset 0x00C 0x00000002 = .next t) ∧
    State.reset.status.busy = false ∧ State.reset.status.err = false ∧
    (∃ t, hostWrite32 State.reset 0x010 0x00000001 = .next t) ∧
    (∃ t, hostWrite32 State.reset 0x008 0x00000000 = .next t) ∧
    ∃ t, hostWrite32 State.reset 0x008 0x00000001 = .next t :=
  ⟨engineMoves_busyWith _, ⟨_, rfl⟩, ⟨_, rfl⟩, rfl, rfl, ⟨_, rfl⟩, ⟨_, rfl⟩, ⟨_, rfl⟩⟩

theorem witness_ResetFromEveryState :
    (facing (busyWith 1) .reset).port.pending = .reset :: [] ∧ (0x00000003 : Word).getLsbD 1 = true := by decide

theorem witness_NopDoesNothing : HasReservedBits 0x80000000 0x00 8 := by decide

theorem witness_FmulStoresTheProduct :
    Inside (machine 4064 4064 4064 0 []) [(0, 32), (1, 32), (2, 32)] ∧ Outside (machine 4065 0 0 0 []) 0 32 ∧
    Outside (machine 0 4065 0 0 []) 1 32 ∧ Outside (machine 0 0 0xFFFFFFFF 0 []) 2 32 ∧
    HasReservedBits 0x00000101 0x01 8 := by decide

theorem witness_FredStoresTheCanonicalForm :
    Inside (machine 4064 4064 0 0 []) [(0, 32), (1, 32)] ∧ Outside (machine 4065 0 0 0 []) 0 32 ∧
    Outside (machine 0 4065 0 0 []) 1 32 ∧ HasReservedBits 0x00000102 0x02 8 := by decide

theorem witness_PaddStoresTheSum :
    Inside (machine 3968 3968 3968 0 []) [(0, 128), (1, 128), (2, 128)] ∧ Outside (machine 3969 0 0 0 []) 0 128 ∧
    Outside (machine 0 3969 0 0 []) 1 128 ∧ Outside (machine 0 0 3969 0 []) 2 128 ∧
    HasReservedBits 0x00000110 0x10 8 := by decide

theorem witness_PdblStoresTheDouble :
    Inside (machine 3968 3968 0 0 []) [(0, 128), (1, 128)] ∧ Outside (machine 3969 0 0 0 []) 0 128 ∧
    Outside (machine 0 3969 0 0 []) 1 128 ∧ HasReservedBits 0x00000111 0x11 8 := by decide

theorem witness_PsmulStoresTheMultiple :
    Inside (machine 3968 4064 3968 0 []) [(0, 128), (1, 32), (2, 128)] ∧ Outside (machine 3969 0 0 0 []) 0 128 ∧
    Outside (machine 0 4065 0 0 []) 1 32 ∧ Outside (machine 0 0 3969 0 []) 2 128 ∧
    HasReservedBits 0x00000112 0x12 8 := by decide

theorem witness_Sha256cStoresTheNewState :
    Inside (machine 4064 4032 0 0 []) [(0, 32), (1, 64)] ∧ Outside (machine 4065 0 0 0 []) 0 32 ∧
    Outside (machine 0 4033 0 0 []) 1 64 ∧ HasReservedBits 0x00000220 0x20 9 := by decide

theorem witness_Sha512cStoresTheNewState :
    Inside (machine 4032 3968 0 0 []) [(0, 64), (1, 128)] ∧ Outside (machine 4033 0 0 0 []) 0 64 ∧
    Outside (machine 0 3969 0 0 []) 1 128 ∧ HasReservedBits 0x00000221 0x21 9 := by decide

theorem witness_CcqrRewritesFourWords :
    Inside (machine 4032 0 0 0 []) [(0, 64)] ∧ (Instr.ccqr 0 15 8 1).wf = true ∧ Outside (machine 4033 0 0 0 []) 0 64 ∧
    HasReservedBits 0x01321030 0x30 24 ∧ bitsOf 0x00321130 7 0 = 0x30 ∧
    ¬ [bitsOf 0x00321130 11 8, bitsOf 0x00321130 15 12, bitsOf 0x00321130 19 16, bitsOf 0x00321130 23 20].Nodup := by
  decide

theorem witness_CcblkStoresTheBlock :
    Inside (machine 4032 4064 4084 0 []) [(0, 64), (1, 32), (2, 12)] ∧ Outside (machine 4033 0 0 0 []) 0 64 ∧
    Outside (machine 0 4065 0 0 []) 1 32 ∧ Outside (machine 0 0 4085 0 []) 2 12 ∧
    HasReservedBits 0x00000131 0x31 8 := by decide

theorem witness_P13clampMasksTheKey :
    Inside (machine 4080 4080 0 0 []) [(0, 16), (1, 16)] ∧ Outside (machine 4081 0 0 0 []) 0 16 ∧
    Outside (machine 0 4081 0 0 []) 1 16 ∧ HasReservedBits 0x00000140 0x40 8 := by decide

theorem witness_P13accAccumulates :
    (let s := machine 4079 4080 4080 16 []
     Inside s [(0, 17), (1, 16)] ∧ 1 ≤ s.arg 3 ∧ s.arg 3 ≤ 16 ∧ s.arg 2 + s.arg 3 ≤ s.cfg.memBytes) ∧
    (let s := machine 4079 4080 4095 1 []
     Inside s [(0, 17), (1, 16)] ∧ 1 ≤ s.arg 3 ∧ s.arg 3 ≤ 16 ∧ s.arg 2 + s.arg 3 ≤ s.cfg.memBytes) ∧
    (machine 0 0 0 0 []).arg 3 = 0 ∧ 16 < (machine 0 0 0 17 []).arg 3 ∧
    (1 ≤ (machine 4080 0 0 1 []).arg 3 ∧ Outside (machine 4080 0 0 1 []) 0 17) ∧
    Outside (machine 0 4081 0 1 []) 1 16 ∧
    (let s := machine 0 0 4081 16 []
     s.arg 3 ≤ 16 ∧ s.cfg.memBytes < s.arg 2 + s.arg 3) ∧
    HasReservedBits 0x00000141 0x41 8 := by decide

theorem witness_P13finStoresTheTag :
    Inside (machine 4080 4079 4080 0 []) [(0, 16), (1, 17), (2, 16)] ∧ Outside (machine 4081 0 0 0 []) 0 16 ∧
    Outside (machine 0 4080 0 0 []) 1 17 ∧ Outside (machine 0 0 4081 0 []) 2 16 ∧
    HasReservedBits 0x00000142 0x42 8 := by decide

theorem witness_MlstepRewritesTheRecord :
    Inside (machine 3936 0 0 0 []) [(0, 160)] ∧ Outside (machine 3937 0 0 0 []) 0 160 ∧
    HasReservedBits 0x00000250 0x50 9 := by decide

/-- The peer keys 9 (first) and 0 (second) meet the two premises on the output. -/
theorem witness_X25519StoresTheSharedSecret :
    (let s := machine 4064 0 32 0 [(32, 9)]
     Inside s [(0, 32), (1, 32), (2, 32)] ∧ x25519 (s.read (s.arg 1) 32) (s.read (s.arg 2) 32) ≠ List.replicate 32 0) ∧
    (let s := machine 4064 4064 4064 0 []
     Inside s [(0, 32), (1, 32), (2, 32)] ∧ x25519 (s.read (s.arg 1) 32) (s.read (s.arg 2) 32) = List.replicate 32 0) ∧
    Outside (machine 4065 0 0 0 []) 0 32 ∧ Outside (machine 0 4065 0 0 []) 1 32 ∧
    Outside (machine 0 0 4065 0 []) 2 32 ∧ HasReservedBits 0x00000151 0x51 8 := by decide +kernel

theorem witness_EdsignStoresTheSignature :
    (let s := machine 4032 4064 4096 0 []
     Inside s [(0, 64), (1, 32)] ∧ s.arg 2 + s.arg 3 ≤ s.cfg.memBytes) ∧
    Outside (machine 4033 0 0 0 []) 0 64 ∧ Outside (machine 0 4065 0 0 []) 1 32 ∧
    (let s := machine 0 0 4097 0 []
     s.cfg.memBytes < s.arg 2 + s.arg 3) ∧
    HasReservedBits 0x00000160 0x60 8 := by decide

theorem witness_ZeroizeClearsMemAndX :
    Instr.fmul ≠ .zeroize ∧ (machine 64 0 32 0 [(0, 2)]).mem.wf ∧ (∃ t, exec .fmul (machine 64 0 32 0 [(0, 2)]) = .next t) ∧
    HasReservedBits 0x000001FF 0xFF 8 := ⟨by decide, by decide, ⟨_, rfl⟩, by decide⟩

theorem reset_inv : State.reset.Inv where
  cfg_legal := by decide
  mem_wf := by decide
  mem_within := by decide
  status := ⟨by decide, by decide, by decide, by decide⟩
  idle_latch := by decide

theorem witness_StepKeepsTheInvariant :
    State.reset.Inv ∧ (∃ t, step State.reset = .next t) ∧ (busyWith 0x00000001).Inv ∧
    ∃ t, step (busyWith 0x00000001) = .next t :=
  ⟨reset_inv, ⟨_, rfl⟩,
    ⟨by decide, by decide, by decide, ⟨by decide, by decide, by decide, by decide⟩, by decide⟩, ⟨_, rfl⟩⟩

theorem witness_ErrorsArePrecise :
    EngineMoves (busyWith 3) ∧ (busyWith 3).status.err = false ∧
    ∃ t, step (busyWith 3) = .next t ∧ t.status.err = true ∧ t.status.errcode ≠ 0x12 :=
  ⟨engineMoves_busyWith _, rfl, ⟨_, rfl, by decide, by decide⟩⟩

/-- x[3] = 0 and then an x[0] out of MEM, as example P13ACC of rule R256 has both; X25519 with the peer key 0. -/
theorem witness_ErrorPriority :
    EngineMoves (busyWith 0x41) ∧ (busyWith 0x41).status.err = false ∧ (busyWith 0x41).status.errcode = 0 ∧
    (∃ t, step (busyWith 0x41) = .next t) ∧ decode (busyWith 0x41).cur = .ok .p13acc ∧ (busyWith 0x41).arg 3 = 0 ∧
    decode (busyWith 3).cur = .error (.undefinedOpcode 3) ∧ decode (busyWith 0x51).cur = .ok .x25519 ∧
    (∀ r ∈ operands .x25519 (busyWith 0x51), r.addr + r.len ≤ (busyWith 0x51).cfg.memBytes) ∧
    ∃ r ∈ operands .fmul (machine 4065 0 0 0 []), (machine 4065 0 0 0 []).cfg.memBytes < r.addr + r.len :=
  ⟨engineMoves_busyWith _, rfl, rfl, ⟨_, rfl⟩, by decide, by decide, by decide, by decide, by decide, by decide⟩

theorem witness_CommandsWriteOnlyTheirOutputs :
    (machine 64 0 32 0 [(0, 2)]).mem.wf ∧ Instr.fmul ≠ .zeroize ∧ ∃ t, exec .fmul (machine 64 0 32 0 [(0, 2)]) = .next t :=
  ⟨by decide, by decide, ⟨_, rfl⟩⟩

/-- Two machines that differ in a byte of the output region of FMUL and in one outside every region. -/
theorem witness_ResultsDependOnlyOnOperands :
    let s := machine 64 0 32 0 [(0, 2), (32, 3), (64, 1)]
    let u := machine 64 0 32 0 [(0, 2), (32, 3), (200, 9)]
    s.mem.wf ∧ u.mem.wf ∧ s.x = u.x ∧ s.cfg = u.cfg ∧ s.status = u.status ∧
    (∀ r ∈ operands .fmul s, r.access ≠ .output → ∀ a, InRegion r.addr r.len a → s.mem.byte a = u.mem.byte a) ∧
    (∃ t, exec .fmul s = .next t) ∧ (∃ t, exec .fmul u = .next t) ∧ valueOk .fmul s = true ∧
    ∀ r ∈ operands .fmul s, r.addr + r.len ≤ s.cfg.memBytes := by
  refine ⟨by decide, by decide, rfl, rfl, rfl, fun r hr hacc a ha => ?_, ⟨_, rfl⟩, ⟨_, rfl⟩, by decide, by decide⟩
  have hlt : a < 64 := by
    have hops : operands .fmul (machine 64 0 32 0 [(0, 2), (32, 3), (64, 1)]) =
      [⟨.output, 64, 32⟩, ⟨.input, 0, 32⟩, ⟨.input, 32, 32⟩] := by decide
    rw [hops] at hr
    simp only [List.mem_cons, List.not_mem_nil, or_false] at hr
    rcases hr with rfl | rfl | rfl
    · exact absurd rfl hacc
    · exact lt_of_lt_of_le ha.2 (by decide)
    · exact ha.2
  have h64 : 64 ≠ a := by omega
  have h200 : 200 ≠ a := by omega
  simp [machine, Memory.byte, h64, h200]

theorem witness_BusyHidesOperands :
    let s := facing (busyWith 1) (.host (.read32 0x020))
    let u := { s with mem := [(0, 1)], cur := 2 }
    s.status.busy = true ∧ s.irqEn = u.irqEn ∧ s.status = u.status ∧ s.cfg = u.cfg ∧ s.port = u.port ∧
    s.port.pending = .host (.read32 0x020) :: [] ∧ ∃ t, step s = .next t :=
  ⟨rfl, rfl, rfl, rfl, rfl, rfl, ⟨_, rfl⟩⟩

theorem witness_WhatChangesMemAndX :
    ∃ t, step (facing State.reset (.host (.memWrite 0 (.b1 7)))) = .next t ∧ t.mem ≠ State.reset.mem :=
  ⟨_, rfl, by decide⟩

theorem witness_BusyEndsOnlyByCompletionOrReset :
    (facing (busyWith 1) (.host (.read32 0x00C))).status.busy = true ∧
    ∃ t, step (facing (busyWith 1) (.host (.read32 0x00C))) = .next t := ⟨rfl, ⟨_, rfl⟩⟩

theorem witness_ErrorBlocksUntilCleared :
    let s := facing { State.reset with status := ⟨false, true, true, false, 0x03⟩ } (.host (.write32 0x010 0))
    s.status.busy = false ∧ s.status.err = true ∧ (∃ t, step s = .next t ∧ t.status.err = true) ∧
    ∃ t, hostWrite32 s 0x00C 0x00000004 = .next t := ⟨rfl, rfl, ⟨_, rfl, rfl⟩, ⟨_, rfl⟩⟩

theorem witness_RepresentativesAreContainers : p - 1 < p ∧ q - 1 < q := by decide

theorem witness_FieldOperations : p - 1 < p ∧ 0 < p := by decide

theorem witness_FieldInverseInverts : 0 < p - 1 ∧ p - 1 < p := by decide

theorem witness_EdwardsResultsStayOnTheCurve : OnCurve basePoint ∧ OnCurve neutral :=
  ⟨⟨by decide +kernel, by decide +kernel⟩, ⟨by decide, by decide⟩⟩

theorem witness_ScalarClamp : 2 ^ 256 - 1 < 2 ^ 256 ∧ 3 ≤ 253 ∧ (List.replicate 32 (0xff : Byte)).length = 32 := by
  decide

/-- The accumulator images of q and of 0 (rule R195). -/
theorem witness_TagIgnoresTheRepresentative :
    let s := machine 0 32 64 0 (put [] 32 (toLE q 17))
    let u := machine 0 32 64 0 []
    s.mem.wf ∧ u.mem.wf ∧ s.x = u.x ∧ s.cfg.memBytes = u.cfg.memBytes ∧
    Inside s [(0, 16), (1, 17), (2, 16)] ∧ LE (s.read (s.arg 1) 17) % q = LE (u.read (s.arg 1) 17) % q ∧
    s.read (s.arg 2) 16 = u.read (s.arg 2) 16 ∧ (∃ t, exec .p13fin s = .next t) ∧ ∃ t, exec .p13fin u = .next t :=
  ⟨by decide +kernel, by decide, rfl, rfl, by decide +kernel, by decide +kernel, by decide +kernel, ⟨_, rfl⟩, ⟨_, rfl⟩⟩

theorem witness_Sha512Padding : 0 < 111 ∧ (List.replicate 112 (0 : Byte)).length = 112 := by decide

theorem witness_LadderCommandsMakeX25519 :
    let s := machine 0 0 0 0 ladderMem
    let u : List Byte := toLE 9 32
    (zeros 32).length = 32 ∧ s.mem.wf ∧ s.arg 0 + 160 ≤ s.cfg.memBytes ∧ s.readField (s.arg 0) = udec u ∧
    s.readLadder (s.arg 0) = ⟨1, 0, udec u, 1⟩ := by decide +kernel

theorem witness_QuarterRoundCommandsMakeTheBlock :
    let k : List Word := List.replicate 8 7
    let n : List Word := List.replicate 3 5
    let s := machine 0 0 0 0 (put [] 0 (bytesLE (chachaInit k 1 n)))
    k.length = 8 ∧ n.length = 3 ∧ s.mem.wf ∧ s.arg 0 + 64 ≤ s.cfg.memBytes ∧
    s.read (s.arg 0) 64 = bytesLE (chachaInit k 1 n) := by decide +kernel

theorem witness_WeakPeerKeysGiveZero :
    udec (zeros 32) ∈ [0, 1, p - 1] ∧ udec (toLE (2 ^ 255 + p) 32) = 0 ∧ udec (toLE (2 ^ 255 + 1) 32) = 1 ∧
    udec (toLE (p + 1) 32) = 1 ∧ udec (toLE (p - 1) 32) = p - 1 := by decide +kernel

end Sys2Proof.Tests
end

/-! PROOFS. The representatives of a residue (rule R8): REP255_OK and REP130_OK for every choice of parameters. -/

namespace Sys2Proof.Machine

/-- The shape shared by `rep255` and `rep130`: a number of steps of `m` above `v`, cut to those that stay below `B`. -/
theorem container_lt {v B : Nat} (m n : Nat) (hv : v < B) : v + m * (n % ((B - 1 - v) / m + 1)) < B := by
  have hsteps : n % ((B - 1 - v) / m + 1) ≤ (B - 1 - v) / m := Nat.le_of_lt_succ (Nat.mod_lt n (Nat.succ_pos _))
  calc v + m * (n % ((B - 1 - v) / m + 1))
      ≤ v + m * ((B - 1 - v) / m) := Nat.add_le_add_left (Nat.mul_le_mul_left m hsteps) v
    _ ≤ v + (B - 1 - v) := Nat.add_le_add_left (Nat.mul_div_le _ m) v
    _ < B := by omega

/-! ### The two cases of each choice -/

theorem rep255_of_canonical {c : Config} (h : c.rep255 = .canonical) (v : Nat) : rep255 c v = v := by
  simp only [rep255, h]

theorem rep255_of_other {c : Config} {k : Nat} (h : c.rep255 = .other k) (v : Nat) :
    rep255 c v = v + p * (Config.freeRep255 k v % ((2 ^ 256 - 1 - v) / p + 1)) := by
  simp only [rep255, h]

theorem rep130_of_canonical {c : Config} (h : c.rep130 = .canonical) (v : Nat) : rep130 c v = v := by
  simp only [rep130, h]

theorem rep130_of_other {c : Config} {k : Nat} (h : c.rep130 = .other k) (v : Nat) :
    rep130 c v = v + q * (Config.freeRep130 k v % ((2 ^ 136 - 1 - v) / q + 1)) := by
  simp only [rep130, h]

/-! ### REP255_OK, REP130_OK and the default instance -/

theorem rep255_lt (c : Config) {v : Nat} (hv : v < p) : rep255 c v < 2 ^ 256 := by
  have hv' : v < 2 ^ 256 := hv.trans (by decide)
  cases hc : c.rep255 with
  | canonical => rwa [rep255_of_canonical hc]
  | other k => rw [rep255_of_other hc]; exact container_lt p _ hv'

theorem rep255_mod_p (c : Config) {v : Nat} (hv : v < p) : rep255 c v % p = v := by
  cases hc : c.rep255 with
  | canonical => rw [rep255_of_canonical hc, Nat.mod_eq_of_lt hv]
  | other k => rw [rep255_of_other hc, Nat.add_mul_mod_self_left, Nat.mod_eq_of_lt hv]

theorem rep130_lt (c : Config) {v : Nat} (hv : v < q) : rep130 c v < 2 ^ 136 := by
  have hv' : v < 2 ^ 136 := hv.trans (by decide)
  cases hc : c.rep130 with
  | canonical => rwa [rep130_of_canonical hc]
  | other k => rw [rep130_of_other hc]; exact container_lt q _ hv'

theorem rep130_mod_q (c : Config) {v : Nat} (hv : v < q) : rep130 c v % q = v := by
  cases hc : c.rep130 with
  | canonical => rw [rep130_of_canonical hc, Nat.mod_eq_of_lt hv]
  | other k => rw [rep130_of_other hc, Nat.add_mul_mod_self_left, Nat.mod_eq_of_lt hv]

@[simp] theorem rep255_default (v : Nat) : rep255 Config.default v = v := rep255_of_canonical rfl v

@[simp] theorem rep130_default (v : Nat) : rep130 Config.default v = v := rep130_of_canonical rfl v

/-- Settles O48: the steps above the residue are cut to those that stay a container, and each is a multiple of the
modulus. -/
theorem representativesAreContainers : Obligations.RepresentativesAreContainers :=
  ⟨fun c _ hv => ⟨rep255_lt c hv, rep255_mod_p c hv⟩, fun c _ hv => ⟨rep130_lt c hv, rep130_mod_q c hv⟩,
    fun v => ⟨rep255_default v, rep130_default v⟩⟩

end Sys2Proof.Machine

/-! PROOFS. The host port: the register map (rule R34), what an access of each register is, and STATUS bit by bit as
the host reads it (rule R27). -/

namespace Sys2Proof.Machine

/-! ### The register map -/

theorem regAt_arg (i : Fin 8) : regAt (0x020 + 4 * i.val) = .arg i := by revert i; decide

theorem regOffsetOk_arg (i : Fin 8) : regOffsetOk (0x020 + 4 * i.val) = true := by revert i; decide

theorem regAt_reserved {off : Nat} (h : (0x014 ≤ off ∧ off < 0x020) ∨ (0x040 ≤ off ∧ off ≤ 0xFFFC)) :
    regAt off = .reserved := by
  rw [regAt, if_neg (by omega), if_neg (by omega), if_neg (by omega), if_neg (by omega), if_neg (by omega),
    dif_neg (by omega)]

/-! ### One access of a named register -/

section Access

variable {s : State} {off : Nat} {v : Word}

theorem hostRead32_of_regOffsetOk (h : regOffsetOk off = true) :
    hostRead32 s off = .next (reply (afterRegRead s (regAt off)) (regValue s (regAt off))) := if_pos h

theorem hostWrite32_of_regOffsetOk (h : regOffsetOk off = true) :
    hostWrite32 s off v = .next (writeReg s v (regAt off)) := if_pos h

variable (s v)

@[simp] theorem hostRead32_id : hostRead32 s 0x000 = .next (reply s idWord) := rfl
@[simp] theorem hostRead32_cfg : hostRead32 s 0x004 = .next (reply s (cfgWord s.cfg)) := rfl
@[simp] theorem hostRead32_ctrl : hostRead32 s 0x008 = .next (reply s (ctrlWord s.irqEn)) := rfl
@[simp] theorem hostRead32_status : hostRead32 s 0x00C = .next (reply s s.status.toWord) := rfl
@[simp] theorem hostRead32_cmd : hostRead32 s 0x010 = .next (reply s 0) := rfl

theorem hostRead32_arg (i : Fin 8) : hostRead32 s (0x020 + 4 * i.val) =
    .next (reply (afterRegRead s (.arg i)) (regValue s (.arg i))) := by
  rw [hostRead32_of_regOffsetOk (regOffsetOk_arg i), regAt_arg]

@[simp] theorem hostWrite32_id : hostWrite32 s 0x000 v = .next s := rfl
@[simp] theorem hostWrite32_cfg : hostWrite32 s 0x004 v = .next s := rfl
@[simp] theorem hostWrite32_ctrl : hostWrite32 s 0x008 v = .next (writeCtrl s v) := rfl
@[simp] theorem hostWrite32_status : hostWrite32 s 0x00C v = .next (writeStatus s v) := rfl
@[simp] theorem hostWrite32_cmd : hostWrite32 s 0x010 v = .next (writeCmd s v) := rfl

theorem hostWrite32_arg (i : Fin 8) : hostWrite32 s (0x020 + 4 * i.val) v = .next (writeArg s i v) := by
  rw [hostWrite32_of_regOffsetOk (regOffsetOk_arg i), regAt_arg, writeReg]

end Access

@[simp] theorem MemData.bytes_length (d : MemData) : d.bytes.length = d.width.bytes := toLE_length _ _

/-! ### The cases of the accesses that depend on BUSY, ERR or the written value -/

section Cases

variable {s : State} {v w : Word} {i : Fin 8}

theorem regValue_arg_busy (h : s.status.busy = true) : regValue s (.arg i) = 0 := if_pos h

theorem regValue_arg_idle (h : s.status.busy = false) : regValue s (.arg i) = s.x[i] := by simp [regValue, h]

theorem afterRegRead_arg_busy (h : s.status.busy = true) : afterRegRead s (.arg i) = refuseAccess s := if_pos h

theorem afterRegRead_arg_idle (h : s.status.busy = false) : afterRegRead s (.arg i) = s := by simp [afterRegRead, h]

theorem writeArg_busy (h : s.status.busy = true) : writeArg s i v = refuseAccess s := if_pos h

theorem writeArg_idle (h : s.status.busy = false) : writeArg s i v = { s with x := s.x.set i v } := by
  simp [writeArg, h]

/-- Bit 1 of a CTRL write is the soft reset (rule R26). -/
theorem writeCtrl_srst (h : v.getLsbD 1 = true) : writeCtrl s v = resetBlock s := if_pos h

theorem writeCtrl_irqEn (h : v.getLsbD 1 = false) : writeCtrl s v = { s with irqEn := v.getLsbD 0 } := by
  rw [writeCtrl, h, if_neg Bool.false_ne_true]

/-- A CTRL write uses bits 0 and 1 of the value only (rule R37). -/
theorem writeCtrl_congr (h0 : v.getLsbD 0 = w.getLsbD 0) (h1 : v.getLsbD 1 = w.getLsbD 1) :
    writeCtrl s v = writeCtrl s w := by simp only [writeCtrl, h0, h1]

/-- A STATUS write uses bits 1, 2 and 3 of the value only (rule R37). -/
theorem writeStatus_congr (h1 : v.getLsbD 1 = w.getLsbD 1) (h2 : v.getLsbD 2 = w.getLsbD 2)
    (h3 : v.getLsbD 3 = w.getLsbD 3) : writeStatus s v = writeStatus s w := by
  simp only [writeStatus, Status.writeOneToClear, h1, h2, h3]

theorem writeCmd_accepted (hb : s.status.busy = false) (he : s.status.err = false) :
    writeCmd s v = { s with cur := v, status := s.status.accept } := by simp [writeCmd, hb, he]

theorem writeCmd_refused (h : s.status.busy = true ∨ s.status.err = true) : writeCmd s v = refuseAccess s := by
  obtain h | h := h <;> simp [writeCmd, h]

theorem windowOk_busy (h : s.status.busy = true) (a n : Nat) : windowOk s a n = false := by simp [windowOk, h]

theorem windowOk_iff {a n : Nat} :
    windowOk s a n = true ↔ s.status.busy = false ∧ a + n ≤ s.cfg.memBytes := by simp [windowOk]

end Cases

/-! ### The words that the host reads -/

theorem cfgWord_toNat {c : Config} (h : c.legal = true) : (cfgWord c).toNat = c.memBytes := by
  simp only [Config.legal, Bool.and_eq_true, decide_eq_true_eq] at h
  simp only [cfgWord, BitVec.toNat_ofNat]
  omega

theorem ctrlWord_eq (b : Bool) : ctrlWord b = if b then 1 else 0 := by cases b <;> rfl

theorem ctrlWord_getLsbD_of_pos (b : Bool) {k : Nat} (hk : 1 ≤ k) : (ctrlWord b).getLsbD k = false := by
  have hk0 : k ≠ 0 := by omega
  cases b <;> simp [ctrlWord_eq, hk0]

/-- The low byte of STATUS as the host reads it: BUSY, DONE, ERR, HERR in bits 0 to 3 (rule R27). -/
def Status.lowByte (st : Status) : Nat := st.busy.toNat + st.done.toNat * 2 + st.err.toNat * 4 + st.herr.toNat * 8

theorem Status.toWord_eq (st : Status) : st.toWord = .ofNat 32 (2 ^ 8 * st.errcode.toNat + st.lowByte) := by
  rw [Status.toWord, Status.lowByte, Nat.mul_comm (2 ^ 8), Nat.add_comm (st.errcode.toNat * 2 ^ 8)]

theorem Status.lowByte_lt (st : Status) : st.lowByte < 2 ^ 4 := by
  have hb := st.busy.toNat_lt
  have hd := st.done.toNat_lt
  have he := st.err.toNat_lt
  have hh := st.herr.toNat_lt
  simp only [Status.lowByte]
  omega

/-- A bit below 32 of STATUS stands in the low byte or in ERRCODE. -/
theorem Status.toWord_getLsbD (st : Status) {k : Nat} (hk : k < 32) :
    st.toWord.getLsbD k = if k < 8 then st.lowByte.testBit k else st.errcode.getLsbD (k - 8) := by
  have hlow : st.lowByte < 2 ^ 8 := st.lowByte_lt.trans (by decide)
  rw [Status.toWord_eq, BitVec.getLsbD_ofNat, Nat.testBit_two_pow_mul_add _ hlow, decide_eq_true hk, Bool.true_and,
    BitVec.testBit_toNat]

theorem Status.toWord_getLsbD_low (st : Status) {k : Nat} (hk : k < 8) :
    st.toWord.getLsbD k = st.lowByte.testBit k := by
  rw [st.toWord_getLsbD (by omega), if_pos hk]

theorem Status.toWord_getLsbD_high (st : Status) {k : Nat} (hk : k < 24) :
    st.toWord.getLsbD (8 + k) = st.errcode.getLsbD k := by
  rw [st.toWord_getLsbD (by omega), if_neg (by omega), Nat.add_sub_cancel_left]

theorem Status.toWord_getLsbD_flags (st : Status) :
    st.toWord.getLsbD 0 = st.busy ∧ st.toWord.getLsbD 1 = st.done ∧ st.toWord.getLsbD 2 = st.err ∧
    st.toWord.getLsbD 3 = st.herr := by
  obtain ⟨busy, done, err, herr, errcode⟩ := st
  simp only [Status.toWord_getLsbD_low, Nat.reduceLT, Status.lowByte]
  revert busy done err herr
  decide

/-- Bits 7:4 and 31:16 of STATUS read 0 (rules R27, R37). -/
theorem Status.toWord_getLsbD_reserved (st : Status) {k : Nat} (h4 : 4 ≤ k) (hk : k < 8 ∨ 16 ≤ k) :
    st.toWord.getLsbD k = false := by
  obtain hk | hk := hk
  · rw [st.toWord_getLsbD_low hk]
    exact Nat.testBit_lt_two_pow (st.lowByte_lt.trans_le (Nat.pow_le_pow_right (by decide) h4))
  · obtain ⟨j, rfl⟩ := Nat.exists_eq_add_of_le (show 8 ≤ k by omega)
    by_cases hj : j < 24
    · rw [st.toWord_getLsbD_high hj]
      exact BitVec.getLsbD_of_ge _ _ (by omega)
    · exact BitVec.getLsbD_of_ge _ _ (by omega)

end Sys2Proof.Machine

/-! PROOFS. The step at the host's turn and at the engine's (rules R79, R102, R262). -/

namespace Sys2Proof.Machine

section Step

variable {s : State}

theorem step_of_host {op : HostOp} {rest : List Event} (h : s.port.pending = .host op :: rest) :
    step s = hostAccess (dropEvent s) op := by rw [step, nextTurn_host h]

/-- At the engine's turn the step is the engine's (rules R79, R262). -/
theorem step_of_engineMoves (h : EngineMoves s) : step s = runEngine (dropEvent s) := by
  have hturn : nextTurn s = engineTurn (dropEvent s) := by
    obtain hp | ⟨rest, hp⟩ := h.turn
    · exact nextTurn_nil hp
    · exact nextTurn_engine hp
  rw [step, hturn, engineTurn_busy (by simpa using h.busy)]

theorem runEngine_ok {i : Instr} (h : decode s.cur = .ok i) : runEngine s = exec i s := by
  simp only [runEngine, latchedCommand, h]

theorem runEngine_error {e : DecodeError} (h : decode s.cur = .error e) : runEngine s = .next (completeIllegal s) := by
  simp only [runEngine, latchedCommand, h]

/-- Whatever word is latched, the engine's step is a completion (rules R262, R263). -/
theorem runEngine_eq_complete (s : State) : ∃ e, runEngine s = .next (complete s e) := by
  cases h : decode s.cur with
  | ok i => exact ⟨_, (runEngine_ok h).trans (exec_eq i s)⟩
  | error e => exact ⟨_, runEngine_error h⟩

end Step

/-- Settles O5, by the engine's turn and its decoded latch. -/
theorem engineRunsTheLatchedCommand : Obligations.EngineRunsTheLatchedCommand := by
  intro s i hmoves hdecode
  rw [step_of_engineMoves hmoves, runEngine_ok (by simpa using hdecode)]
  rfl

end Sys2Proof.Machine

/-! PROOFS. The invariant of the machine (rules R7, R27, R30, R31): reset meets it and every event keeps it. -/

namespace Sys2Proof.Machine

/-! ### STATUS -/

/-- The codes that commands raise (rule R258): the only ones that a consistent STATUS holds. -/
abbrev IsRaisedCode (code : Byte) : Prop := code = 0x01 ∨ code = 0x02 ∨ code = 0x03 ∨ code = 0x12

namespace Status.Consistent

variable {st : Status}

theorem reset : State.reset.status.Consistent := ⟨by decide, by decide, by decide, by decide⟩

theorem refuseAccess (h : st.Consistent) : st.refuseAccess.Consistent :=
  ⟨h.busy_not_done, h.busy_not_err, h.no_code, h.code⟩

/-- A command is accepted only while ERR = 0 (rule R28). -/
theorem accept (h : st.Consistent) (herr : st.err = false) : st.accept.Consistent :=
  ⟨fun _ => rfl, fun _ => herr, h.no_code, h.code⟩

/-- Clearing ERR clears ERRCODE with it (rule R27). -/
theorem writeOneToClear (h : st.Consistent) (v : Word) : (st.writeOneToClear v).Consistent where
  busy_not_done hb := by simp [h.busy_not_done hb]
  busy_not_err hb := by simp [h.busy_not_err hb]
  no_code he := by
    rw [Status.writeOneToClear_err] at he
    rw [Status.writeOneToClear_errcode]
    cases hv : v.getLsbD 2 with
    | true => rfl
    | false => exact h.no_code (by rwa [hv, Bool.not_false, Bool.and_true] at he)
  code he := by
    rw [Status.writeOneToClear_err, Bool.and_eq_true, Bool.not_eq_true'] at he
    obtain ⟨herr, hv⟩ := he
    rw [Status.writeOneToClear_errcode, hv]
    exact h.code herr

/-- A completion gives ERRCODE one of the codes that commands raise, or leaves ERR and ERRCODE (rules R258, R262). -/
theorem complete (h : st.Consistent) {err : Option CmdError}
    (hcode : ∀ e ∈ err, IsRaisedCode e.code) :
    (st.complete err).Consistent where
  busy_not_done hb := by simp at hb
  busy_not_err hb := by simp at hb
  no_code he := by
    cases err with
    | none => exact h.no_code he
    | some e => simp at he
  code he := by
    cases err with
    | none => exact h.code he
    | some e => exact hcode e rfl

end Status.Consistent

/-! ### The events of the host -/

theorem Memory.wf_nil : Memory.wf [] := ⟨.nil, by simp⟩

/-- Everything a host access can make of a state: the reply of a read, and for a write nothing, the refusal, the soft
reset, IRQ_EN, the clearing of STATUS bits, the latching of a command, and while BUSY = 0 an x register or bytes inside
MEM. -/
inductive HostChange (s : State) : State → Prop where
  | read (v : Word) : HostChange s (reply s v)
  | readRefused (v : Word) : HostChange s (reply (refuseAccess s) v)
  | ignored : HostChange s s
  | refused : HostChange s (refuseAccess s)
  | reset : HostChange s (resetBlock s)
  | irqEn (on : Bool) : HostChange s { s with irqEn := on }
  | status (v : Word) : HostChange s (writeStatus s v)
  | latched (v : Word) (idle : s.status.busy = false) (noErr : s.status.err = false) :
      HostChange s { s with cur := v, status := s.status.accept }
  | arg (i : Fin 8) (v : Word) (idle : s.status.busy = false) : HostChange s { s with x := s.x.set i v }
  | mem (a : Nat) (bs : List Byte) (idle : s.status.busy = false) (inMem : a + bs.length ≤ s.cfg.memBytes) :
      HostChange s { s with mem := s.mem.write a bs }

section HostAccess

variable {s t : State}

theorem hostChange_regRead (s : State) (r : RegName) (v : Word) : HostChange s (reply (afterRegRead s r) v) := by
  cases r with
  | arg i =>
    cases hb : s.status.busy with
    | true => rw [afterRegRead_arg_busy hb]; exact .readRefused v
    | false => rw [afterRegRead_arg_idle hb]; exact .read v
  | _ => exact .read v

theorem hostChange_writeCtrl (s : State) (v : Word) : HostChange s (writeCtrl s v) := by
  cases hv : v.getLsbD 1 with
  | true => rw [writeCtrl_srst hv]; exact .reset
  | false => rw [writeCtrl_irqEn hv]; exact .irqEn _

theorem hostChange_writeCmd (s : State) (v : Word) : HostChange s (writeCmd s v) := by
  cases hb : s.status.busy with
  | true => rw [writeCmd_refused (.inl hb)]; exact .refused
  | false =>
    cases he : s.status.err with
    | true => rw [writeCmd_refused (.inr he)]; exact .refused
    | false => rw [writeCmd_accepted hb he]; exact .latched v hb he

theorem hostChange_writeArg (s : State) (i : Fin 8) (v : Word) : HostChange s (writeArg s i v) := by
  cases hb : s.status.busy with
  | true => rw [writeArg_busy hb]; exact .refused
  | false => rw [writeArg_idle hb]; exact .arg i v hb

theorem hostChange_writeReg (s : State) (v : Word) (r : RegName) : HostChange s (writeReg s v r) := by
  cases r with
  | ctrl => exact hostChange_writeCtrl s v
  | status => exact .status v
  | cmd => exact hostChange_writeCmd s v
  | arg i => exact hostChange_writeArg s i v
  | id | cfg | reserved => exact .ignored

theorem hostChange_memRead (s : State) (a : Nat) (n : MemWidth) : HostChange s (hostMemRead s a n) := by
  rw [hostMemRead]
  split
  · exact .read _
  · exact .readRefused _

theorem hostChange_memWrite (s : State) (a : Nat) (d : MemData) : HostChange s (hostMemWrite s a d) := by
  rw [hostMemWrite]
  split
  · next hok =>
    obtain ⟨hb, hin⟩ := windowOk_iff.mp hok
    exact .mem a d.bytes hb (by simpa using hin)
  · exact .refused

theorem hostChange_hostAccess {op : HostOp} (h : hostAccess s op = .next t) : HostChange s t := by
  cases op with
  | read32 off =>
    simp only [hostAccess, hostRead32] at h
    split at h
    · cases h; exact hostChange_regRead s _ _
    · cases h
  | write32 off v =>
    simp only [hostAccess, hostWrite32] at h
    split at h
    · cases h; exact hostChange_writeReg s v _
    · cases h
  | memRead a n => cases h; exact hostChange_memRead s a n
  | memWrite a d => cases h; exact hostChange_memWrite s a d

theorem HostChange.cfg_eq (h : HostChange s t) : t.cfg = s.cfg := by cases h <;> rfl

theorem resetBlock_inv (h : s.cfg.legal = true) : (resetBlock s).Inv where
  cfg_legal := h
  mem_wf := Memory.wf_nil
  mem_within := by simp
  status := .reset
  idle_latch _ := rfl

theorem HostChange.inv (h : HostChange s t) (hs : s.Inv) : t.Inv := by
  obtain ⟨hcfg, hwf, hin, hst, hlatch⟩ := hs
  cases h with
  | read v => exact ⟨hcfg, hwf, hin, hst, hlatch⟩
  | readRefused v => exact ⟨hcfg, hwf, hin, hst.refuseAccess, hlatch⟩
  | ignored => exact ⟨hcfg, hwf, hin, hst, hlatch⟩
  | refused => exact ⟨hcfg, hwf, hin, hst.refuseAccess, hlatch⟩
  | reset => exact resetBlock_inv hcfg
  | irqEn on => exact ⟨hcfg, hwf, hin, hst, hlatch⟩
  | status v => exact ⟨hcfg, hwf, hin, hst.writeOneToClear v, hlatch⟩
  | latched v idle noErr => exact ⟨hcfg, hwf, hin, hst.accept noErr, fun hb => by simp at hb⟩
  | arg i v idle => exact ⟨hcfg, hwf, hin, hst, hlatch⟩
  | mem a bs idle inMem => exact ⟨hcfg, Memory.write_wf hwf a bs, Memory.write_within hin inMem, hst, hlatch⟩

end HostAccess

/-! ### The engine -/

section Engine

variable {s t : State}

theorem State.Inv.dropEvent (h : s.Inv) : (dropEvent s).Inv :=
  ⟨h.cfg_legal, h.mem_wf, h.mem_within, h.status, h.idle_latch⟩

/-- A completion empties the latch, and keeps the invariant when its MEM and its error do (rule R262). -/
theorem State.Inv.complete (h : s.Inv) {e : Effect} (hwf : e.mem.wf) (hin : e.mem.within s.cfg.memBytes)
    (hcode : ∀ c ∈ e.err, IsRaisedCode c.code) :
    (Machine.complete s e).Inv :=
  ⟨h.cfg_legal, hwf, hin, h.status.complete hcode, fun _ => rfl⟩

/-- An error that writes nothing keeps MEM (rule R264). -/
theorem State.Inv.complete_raise (h : s.Inv) {c : CmdError} (hcode : IsRaisedCode c.code) :
    (Machine.complete s (s.raise c)).Inv := by
  refine h.complete h.mem_wf h.mem_within fun c' hc' => ?_
  obtain rfl : c = c' := by simpa using hc'
  exact hcode

theorem RanInRange.inv {i : Instr} (h : RanInRange i s t) (hs : s.Inv) (hok : operandsOk i s = true) : t.Inv := by
  cases h with
  | nop => exact hs.complete hs.mem_wf hs.mem_within (by simp)
  | zeroize => exact hs.complete Memory.wf_nil (by simp) (by simp)
  | wrote region output low high error =>
    have hregion := operandsOk_iff.mp hok _ region
    refine hs.complete (Memory.write_wf hs.mem_wf _ _) (Memory.write_within hs.mem_within (by omega)) fun c hc => ?_
    obtain rfl | ⟨-, rfl⟩ := error
    · simp at hc
    · obtain rfl : CmdError.weakPublicKey = c := by simpa using hc
      exact .inr (.inr (.inr rfl))

theorem exec_inv {i : Instr} (h : exec i s = .next t) (hs : s.Inv) : t.Inv := by
  obtain ⟨-, rfl⟩ | ⟨-, -, rfl⟩ | ⟨-, hok, hran⟩ := exec_cases h
  · exact hs.complete_raise (.inr (.inl rfl))
  · exact hs.complete_raise (.inr (.inr (.inl rfl)))
  · exact hran.inv hs hok

theorem runEngine_inv (h : runEngine s = .next t) (hs : s.Inv) : t.Inv := by
  cases hd : decode s.cur with
  | ok i => exact exec_inv (runEngine_ok hd ▸ h) hs
  | error e =>
    rw [runEngine_error hd] at h
    cases h
    exact hs.complete_raise (.inl rfl)

end Engine

/-! ### The step -/

/-- No step changes the parameters (rule R293). -/
theorem step_cfg {s t : State} (h : step s = .next t) : t.cfg = s.cfg := by
  obtain ⟨op, rest, -, hstep⟩ | ⟨rest, -, hstep⟩ | ⟨-, -, hstep⟩ | ⟨-, -, hstep⟩ := step_cases s <;> rw [hstep] at h
  · exact (hostChange_hostAccess h).cfg_eq
  · cases h; rfl
  · obtain ⟨e, he⟩ := runEngine_eq_complete (dropEvent s)
    rw [he] at h
    cases h; rfl
  · cases h; rfl

theorem step_inv {s t : State} (h : step s = .next t) (hs : s.Inv) : t.Inv := by
  obtain ⟨op, rest, -, hstep⟩ | ⟨rest, -, hstep⟩ | ⟨-, -, hstep⟩ | ⟨-, -, hstep⟩ := step_cases s <;> rw [hstep] at h
  · exact (hostChange_hostAccess h).inv hs.dropEvent
  · cases h; exact resetBlock_inv hs.cfg_legal
  · exact runEngine_inv h hs.dropEvent
  · cases h; exact hs.dropEvent

/-- Settles O39: the host's changes, the reset and each completion keep every part of the invariant. -/
theorem stepKeepsTheInvariant : Obligations.StepKeepsTheInvariant :=
  fun _ _ hs h => ⟨step_inv h hs, step_cfg h⟩

/-- Settles O38: the state after reset is the reset of a state with legal parameters. -/
theorem resetMeetsTheInvariant : Obligations.ResetMeetsTheInvariant :=
  resetBlock_inv (s := State.reset) (by decide)

end Sys2Proof.Machine

/-! PROOFS. What the host sees while BUSY = 1 (rules R33, R36, R73): a relation between two states that hides x, MEM and
CUR, kept by every host access. -/

namespace Sys2Proof.Machine

/-- Two states agree on everything but x, MEM and CUR. -/
structure SameButOperands (s u : State) : Prop where
  irqEn  : s.irqEn = u.irqEn
  status : s.status = u.status
  cfg    : s.cfg = u.cfg
  port   : s.port = u.port

namespace SameButOperands

variable {s u : State}

theorem dropEvent (h : SameButOperands s u) : SameButOperands (dropEvent s) (dropEvent u) :=
  ⟨h.irqEn, h.status, h.cfg, by simp only [Machine.dropEvent, h.port]⟩

theorem reply (h : SameButOperands s u) (v : Word) : SameButOperands (reply s v) (reply u v) :=
  ⟨h.irqEn, h.status, h.cfg, by simp only [Machine.reply, h.port]⟩

theorem refuseAccess (h : SameButOperands s u) : SameButOperands (refuseAccess s) (refuseAccess u) :=
  ⟨h.irqEn, by simp [h.status], h.cfg, h.port⟩

theorem resetBlock (h : SameButOperands s u) : SameButOperands (resetBlock s) (resetBlock u) :=
  ⟨rfl, rfl, h.cfg, h.port⟩

theorem writeCtrl (h : SameButOperands s u) (v : Word) : SameButOperands (writeCtrl s v) (writeCtrl u v) := by
  cases hv : v.getLsbD 1 with
  | true => rw [writeCtrl_srst hv, writeCtrl_srst hv]; exact h.resetBlock
  | false => rw [writeCtrl_irqEn hv, writeCtrl_irqEn hv]; exact ⟨rfl, h.status, h.cfg, h.port⟩

theorem writeStatus (h : SameButOperands s u) (v : Word) : SameButOperands (writeStatus s v) (writeStatus u v) :=
  ⟨h.irqEn, by simp only [Machine.writeStatus, h.status], h.cfg, h.port⟩

/-! The accesses below reach x, MEM or CUR while BUSY = 0; while BUSY = 1 they are refused in both states. -/

theorem afterRegRead (h : SameButOperands s u) (hb : s.status.busy = true) (r : RegName) :
    SameButOperands (afterRegRead s r) (afterRegRead u r) := by
  cases r with
  | arg i => rw [afterRegRead_arg_busy hb, afterRegRead_arg_busy (h.status ▸ hb)]; exact h.refuseAccess
  | _ => exact h

theorem regValue (h : SameButOperands s u) (hb : s.status.busy = true) (r : RegName) : regValue s r = regValue u r := by
  cases r with
  | arg i => rw [regValue_arg_busy hb, regValue_arg_busy (h.status ▸ hb)]
  | cfg => exact congrArg cfgWord h.cfg
  | ctrl => exact congrArg ctrlWord h.irqEn
  | status => exact congrArg Status.toWord h.status
  | id | cmd | reserved => rfl

theorem writeReg (h : SameButOperands s u) (hb : s.status.busy = true) (v : Word) (r : RegName) :
    SameButOperands (writeReg s v r) (writeReg u v r) := by
  have hbu : u.status.busy = true := h.status ▸ hb
  cases r with
  | ctrl => exact h.writeCtrl v
  | status => exact h.writeStatus v
  | cmd =>
    simp only [Machine.writeReg, writeCmd_refused (.inl hb), writeCmd_refused (.inl hbu)]
    exact h.refuseAccess
  | arg i =>
    simp only [Machine.writeReg, writeArg_busy hb, writeArg_busy hbu]
    exact h.refuseAccess
  | id | cfg | reserved => exact h

theorem hostMemRead (h : SameButOperands s u) (hb : s.status.busy = true) (a : Nat) (n : MemWidth) :
    SameButOperands (hostMemRead s a n) (hostMemRead u a n) := by
  simp only [Machine.hostMemRead, windowOk_busy hb, windowOk_busy (h.status ▸ hb : u.status.busy = true)]
  exact h.refuseAccess.reply 0

theorem hostMemWrite (h : SameButOperands s u) (hb : s.status.busy = true) (a : Nat) (d : MemData) :
    SameButOperands (hostMemWrite s a d) (hostMemWrite u a d) := by
  simp only [Machine.hostMemWrite, windowOk_busy hb, windowOk_busy (h.status ▸ hb : u.status.busy = true)]
  exact h.refuseAccess

theorem hostAccess {s' : State} (h : SameButOperands s u) (hb : s.status.busy = true) {op : HostOp}
    (hs : hostAccess s op = .next s') : ∃ u', hostAccess u op = .next u' ∧ SameButOperands s' u' := by
  cases op with
  | read32 off =>
    simp only [Machine.hostAccess, hostRead32] at hs ⊢
    split at hs
    · next hok =>
      cases hs
      rw [if_pos hok, h.regValue hb]
      exact ⟨_, rfl, (h.afterRegRead hb _).reply _⟩
    · cases hs
  | write32 off v =>
    simp only [Machine.hostAccess, hostWrite32] at hs ⊢
    split at hs
    · next hok =>
      cases hs
      rw [if_pos hok]
      exact ⟨_, rfl, h.writeReg hb v _⟩
    · cases hs
  | memRead a n => cases hs; exact ⟨_, rfl, h.hostMemRead hb a n⟩
  | memWrite a d => cases hs; exact ⟨_, rfl, h.hostMemWrite hb a d⟩

end SameButOperands

/-- Settles O44: the host's access keeps the relation that hides x, MEM and CUR. -/
theorem busyHidesOperands : Obligations.BusyHidesOperands := by
  intro s u s' op rest hb hirq hst hcfg hport hpend hs
  have hsame : SameButOperands s u := ⟨hirq, hst, hcfg, hport⟩
  rw [step_of_host hpend] at hs
  obtain ⟨u', hu, hsame'⟩ := hsame.dropEvent.hostAccess hb hs
  exact ⟨u', (step_of_host (hport ▸ hpend)).trans hu, hsame'.irqEn, hsame'.status, hsame'.cfg, hsame'.port⟩

end Sys2Proof.Machine

/-! PROOFS. The statements on the registers of the host port (rules R24 to R28, R35 to R38). -/

namespace Sys2Proof.Machine

/-- Settles O8: legal parameters fit the seventeen bits of CFG. -/
theorem idAndCfgAreConstant : Obligations.IdAndCfgAreConstant := by
  intro s v hlegal
  have hcfg := cfgWord_toNat hlegal
  have hlt : s.cfg.memBytes < 2 ^ 17 := by
    simp only [Config.legal, Bool.and_eq_true, decide_eq_true_eq] at hlegal
    omega
  refine ⟨hostRead32_id s, hostWrite32_id s v, ⟨cfgWord s.cfg, hostRead32_cfg s, ?_, ?_⟩, hostWrite32_cfg s v⟩
  · rw [hcfg, Nat.mod_eq_of_lt hlt]
  · rw [hcfg, Nat.div_eq_of_lt hlt]

/-- Settles O9, by the two cases of a CTRL write. -/
theorem ctrlReadsAndWrites : Obligations.CtrlReadsAndWrites := by
  refine ⟨fun s => ?_, fun s v hv => ?_, fun s v hv => ?_, rfl⟩
  · rw [hostRead32_ctrl, ctrlWord_eq]
  · rw [hostWrite32_ctrl, writeCtrl_srst hv]
  · rw [hostWrite32_ctrl, writeCtrl_irqEn hv]

/-- Settles O10: the flags are the low byte of the word, ERRCODE the next, and nothing stands above. -/
theorem statusReadsAndClears : Obligations.StatusReadsAndClears := by
  refine ⟨fun s => ⟨s.status.toWord, hostRead32_status s, ?_⟩, fun s v => rfl⟩
  obtain ⟨hbusy, hdone, herr, hherr⟩ := s.status.toWord_getLsbD_flags
  exact ⟨hbusy, hdone, herr, hherr, fun k hk => s.status.toWord_getLsbD_high (by omega),
    fun k h4 h8 => s.status.toWord_getLsbD_reserved h4 (.inl h8),
    fun k h16 => s.status.toWord_getLsbD_reserved (by omega) (.inr h16)⟩

/-- Settles O11, by the two cases of a CMD write. -/
theorem cmdAcceptance : Obligations.CmdAcceptance := by
  refine ⟨fun s v hb he => ?_, fun s v h => ?_, hostRead32_cmd⟩
  · rw [hostWrite32_cmd, writeCmd_accepted hb he]; rfl
  · rw [hostWrite32_cmd, writeCmd_refused h]; rfl

/-- A write of CTRL does not set HERR: the soft reset clears it (rule R36). -/
theorem writeCtrl_herr {s : State} {v : Word} (h : (writeCtrl s v).status.herr = true) : s.status.herr = true := by
  cases hv : v.getLsbD 1 with
  | true => rw [writeCtrl_srst hv] at h; exact absurd h Bool.false_ne_true
  | false => rwa [writeCtrl_irqEn hv] at h

/-- A write of STATUS does not set HERR (rules R27, R36). -/
theorem writeStatus_herr {s : State} {v : Word} (h : (writeStatus s v).status.herr = true) :
    s.status.herr = true := by
  have hclear : (s.status.herr && !v.getLsbD 3) = true := h
  exact (Bool.and_eq_true_iff.mp hclear).1

/-- Settles O12, by the two values of BUSY for an x register, and register by register for the others. -/
theorem argumentRegisterAccess : Obligations.ArgumentRegisterAccess := by
  refine ⟨fun s i v hb => ⟨?_, ?_⟩, fun s i v hb => ⟨?_, s.x.set i v, ?_, ?_, fun j hj => ?_⟩, fun s off hoff => ?_,
    fun s => ⟨_, hostRead32_status s⟩, fun s off v hoff => ?_⟩
  · rw [hostRead32_arg, afterRegRead_arg_busy hb, regValue_arg_busy hb]; rfl
  · rw [hostWrite32_arg, writeArg_busy hb]; rfl
  · rw [hostRead32_arg, afterRegRead_arg_idle hb, regValue_arg_idle hb]
  · rw [hostWrite32_arg, writeArg_idle hb]
  · exact Vector.getElem_set_self _
  · exact Vector.getElem_set_ne _ _ fun h => hj (Fin.ext h.symm)
  · simp only [List.mem_cons, List.not_mem_nil, or_false] at hoff
    obtain rfl | rfl | rfl := hoff
    · exact ⟨idWord, fun _ => hostRead32_id _⟩
    · exact ⟨cfgWord s.cfg, fun _ => hostRead32_cfg _⟩
    · exact ⟨ctrlWord s.irqEn, fun _ => hostRead32_ctrl _⟩
  · simp only [List.mem_cons, List.not_mem_nil, or_false] at hoff
    obtain rfl | rfl | rfl | rfl := hoff
    · exact ⟨s, hostWrite32_id s v, id⟩
    · exact ⟨s, hostWrite32_cfg s v, id⟩
    · exact ⟨_, hostWrite32_ctrl s v, writeCtrl_herr⟩
    · exact ⟨_, hostWrite32_status s v, writeStatus_herr⟩

/-- Settles O13, by the register map and the bits that a write of CTRL or STATUS uses. -/
theorem reservedOffsetsAndBits : Obligations.ReservedOffsetsAndBits := by
  refine ⟨fun s off v halign hoff => ?_, fun s v w h0 h1 => ?_, fun s v w h1 h2 h3 => ?_, fun s =>
    ⟨_, _, hostRead32_ctrl s, hostRead32_status s, fun k hk => ctrlWord_getLsbD_of_pos _ hk,
      fun k h4 hk => s.status.toWord_getLsbD_reserved h4 hk⟩⟩
  · have hok : regOffsetOk off = true := by
      simp only [regOffsetOk, Bool.and_eq_true, beq_iff_eq, decide_eq_true_eq]
      omega
    rw [hostRead32_of_regOffsetOk hok, hostWrite32_of_regOffsetOk hok, regAt_reserved hoff]
    exact ⟨rfl, rfl⟩
  · rw [hostWrite32_ctrl, hostWrite32_ctrl, writeCtrl_congr h0 h1]
  · rw [hostWrite32_status, hostWrite32_status, writeStatus_congr h1 h2 h3]

/-- Settles O18: irq is IRQ_EN and DONE after the engine's completion and after each host write that moves it. -/
theorem interruptLine : Obligations.InterruptLine := by
  refine ⟨fun s => rfl, fun s t hmoves h => ?_, fun s t h => ?_, fun s t v hb he h => ?_, fun s t h => ?_,
    fun s t h => ?_⟩
  · obtain ⟨e, he⟩ := runEngine_eq_complete (dropEvent s)
    rw [step_of_engineMoves hmoves, he] at h
    cases h
    simp [State.irq]
  · rw [hostWrite32_status] at h
    cases h
    simp [State.irq, writeStatus]
  · rw [hostWrite32_cmd, writeCmd_accepted hb he] at h
    cases h
    simp [State.irq]
  · rw [hostWrite32_ctrl, writeCtrl_irqEn (by decide)] at h
    cases h
    simp [State.irq]
  · rw [hostWrite32_ctrl, writeCtrl_irqEn (by decide)] at h
    cases h
    simp [State.irq]

theorem reset_x_getElem : ∀ i : Fin 8, State.reset.x[i] = 0 := by decide

/-- The reset of any state gives every piece of the block its reset value (rule R38). -/
theorem blockIsReset_resetBlock (s : State) : BlockIsReset (resetBlock s) where
  x := reset_x_getElem
  irqEn := rfl
  busy := rfl
  done := rfl
  err := rfl
  herr := rfl
  errcode := rfl
  cur := rfl
  mem := Memory.byte_nil

/-- Settles O19: the state after reset is the reset of itself, and its ID and CFG are the constants. -/
theorem resetValues : Obligations.ResetValues :=
  ⟨blockIsReset_resetBlock State.reset, rfl, hostRead32_id _, hostRead32_cfg _⟩

end Sys2Proof.Machine

/-! PROOFS. Host accesses, continued: the register port's bounds (rules R70, R71), the MEM window carried out and
refused (rules R72, R73), what an access leaves alone (rules R74, R79), and the next event of the total order (rule
R79). -/

namespace Sys2Proof.Machine

/-! ### Offsets and the register map -/

section Offsets

variable {s : State} {off : Nat} {v : Word}

theorem regOffsetOk_iff : regOffsetOk off = true ↔ off % 4 = 0 ∧ off ≤ 0xFFFC := by simp [regOffsetOk]

theorem hostRead32_of_not_regOffsetOk (h : ¬ regOffsetOk off = true) :
    hostRead32 s off = .refused (.registerAccessOutsidePort off) := if_neg h

theorem hostWrite32_of_not_regOffsetOk (h : ¬ regOffsetOk off = true) :
    hostWrite32 s off v = .refused (.registerAccessOutsidePort off) := if_neg h

/-- An answered read is one of an offset of the port (rule R71). -/
theorem hostRead32_next {t : State} (h : hostRead32 s off = .next t) :
    regOffsetOk off = true ∧ t = reply (afterRegRead s (regAt off)) (regValue s (regAt off)) := by
  by_cases hok : regOffsetOk off = true
  · rw [hostRead32_of_regOffsetOk hok] at h
    cases h
    exact ⟨hok, rfl⟩
  · rw [hostRead32_of_not_regOffsetOk hok] at h
    cases h

/-- An answered write is one of an offset of the port (rule R71). -/
theorem hostWrite32_next {t : State} (h : hostWrite32 s off v = .next t) :
    regOffsetOk off = true ∧ t = writeReg s v (regAt off) := by
  by_cases hok : regOffsetOk off = true
  · rw [hostWrite32_of_regOffsetOk hok] at h
    cases h
    exact ⟨hok, rfl⟩
  · rw [hostWrite32_of_not_regOffsetOk hok] at h
    cases h

/-- CTRL stands at one offset of the map (rule R34). -/
theorem eq_of_regAt_ctrl (h : regAt off = .ctrl) : off = 0x008 := by
  unfold regAt at h
  split_ifs at h
  assumption

/-- x[i] stands at one aligned offset of the map (rule R34). -/
theorem eq_of_regAt_arg {i : Fin 8} (halign : off % 4 = 0) (h : regAt off = .arg i) : off = 0x020 + 4 * i.val := by
  unfold regAt at h
  split_ifs at h
  obtain rfl := RegName.arg.inj h
  simp only
  omega

end Offsets

/-- Settles O14: the check of the offset decides between the answer and the refusal. -/
theorem registerPortBounds : Obligations.RegisterPortBounds := by
  refine ⟨fun s off v hoff => ?_, fun s off v halign hle => ?_⟩
  · have hbad : ¬ regOffsetOk off = true := by rw [regOffsetOk_iff]; omega
    exact ⟨hostRead32_of_not_regOffsetOk hbad, hostWrite32_of_not_regOffsetOk hbad⟩
  · have hok : regOffsetOk off = true := regOffsetOk_iff.mpr ⟨halign, hle⟩
    exact ⟨⟨_, hostRead32_of_regOffsetOk hok⟩, ⟨_, hostWrite32_of_regOffsetOk hok⟩⟩

/-! ### The MEM window -/

section Window

variable {s : State} {a : Nat}

theorem windowOk_eq_false_iff {n : Nat} :
    windowOk s a n = false ↔ s.status.busy = true ∨ s.cfg.memBytes < a + n := by
  rw [← Bool.not_eq_true, windowOk_iff, not_and_or, Bool.not_eq_false, Nat.not_le]

theorem hostMemRead_carriedOut {n : MemWidth} (h : windowOk s a n.bytes = true) :
    hostMemRead s a n = reply s (.ofNat 32 (LE (s.read a n.bytes))) := if_pos h

theorem hostMemRead_refused {n : MemWidth} (h : windowOk s a n.bytes = false) :
    hostMemRead s a n = reply (refuseAccess s) 0 := by simp [hostMemRead, h]

theorem hostMemWrite_carriedOut {d : MemData} (h : windowOk s a d.width.bytes = true) :
    hostMemWrite s a d = { s with mem := s.mem.write a d.bytes } := if_pos h

theorem hostMemWrite_refused {d : MemData} (h : windowOk s a d.width.bytes = false) :
    hostMemWrite s a d = refuseAccess s := by simp [hostMemWrite, h]

theorem MemWidth.bytes_le (n : MemWidth) : n.bytes ≤ 4 := by cases n <;> decide

/-- At most four bytes fit the word that a read returns. -/
theorem toNat_ofNat_LE {bs : List Byte} (h : bs.length ≤ 4) : (BitVec.ofNat 32 (LE bs)).toNat = LE bs := by
  rw [BitVec.toNat_ofNat]
  refine Nat.mod_eq_of_lt ?_
  calc LE bs < 256 ^ bs.length := LE_lt bs
    _ ≤ 256 ^ 4 := Nat.pow_le_pow_right (by decide) h
    _ = 2 ^ 32 := by decide

/-- Byte k of `toLE(v, n)` (rule R13). -/
theorem toNat_getElem_toLE (v n k : Nat) (h : k < (toLE v n).length) :
    ((toLE v n)[k]).toNat = v / 256 ^ k % 256 := by
  induction n generalizing v k with
  | zero => simp at h
  | succ n ih =>
    cases k with
    | zero => simp [toLE]
    | succ k =>
      simp only [toLE, List.getElem_cons_succ]
      rw [ih, Nat.div_div_eq_div_mul, pow_succ']

/-- A byte written is the byte read. -/
theorem Memory.byte_write_inside {m : Memory} (hm : m.wf) (a : Nat) {bs : List Byte} {k : Nat} (hk : k < bs.length) :
    (m.write a bs).byte (a + k) = bs[k] := by
  rw [Memory.byte_write hm, dif_pos ⟨by omega, by omega⟩]
  simp

end Window

/-- Settles O15: the word read holds its at most four bytes, and the write lays down the bytes of the value. -/
theorem memWindowCarriedOut : Obligations.MemWindowCarriedOut := by
  refine ⟨fun s a n hb hin => ?_, fun s a d hwf hb hin => ?_⟩
  · have hread := hostMemRead_carriedOut (windowOk_iff.mpr ⟨hb, hin⟩)
    exact ⟨_, congrArg _ hread, toNat_ofNat_LE (by simpa using n.bytes_le)⟩
  · have hwrite := hostMemWrite_carriedOut (windowOk_iff.mpr ⟨hb, hin⟩)
    refine ⟨s.mem.write a d.bytes, congrArg _ hwrite, fun k hk => ?_, fun b hout => ?_⟩
    · rw [Memory.byte_write_inside hwf a (by simpa using hk)]
      exact toNat_getElem_toLE ..
    · exact Memory.byte_write_outside hwf (by simpa using hout)

/-- Settles O16, by the refused case of each window access. -/
theorem memWindowRefused : Obligations.MemWindowRefused :=
  ⟨fun _ _ _ h => congrArg _ (hostMemRead_refused (windowOk_eq_false_iff.mpr h)),
    fun _ _ _ h => congrArg _ (hostMemWrite_refused (windowOk_eq_false_iff.mpr h))⟩

/-! ### What a host read changes -/

/-- The reads that a rule of the port refuses: of an x register while BUSY = 1 (rule R36), of MEM while BUSY = 1 or not
wholly inside MEM (rule R73). -/
inductive ReadRefused (s : State) : HostOp → Prop where
  | arg (i : Fin 8) (busy : s.status.busy = true) : ReadRefused s (.read32 (0x020 + 4 * i.val))
  | memBusy (a : Nat) (n : MemWidth) (busy : s.status.busy = true) : ReadRefused s (.memRead a n)
  | memOutside (a : Nat) (n : MemWidth) (outside : s.cfg.memBytes < a + n.bytes) : ReadRefused s (.memRead a n)

/-- An answered read gives its value and nothing else, or is refused. -/
inductive ReadAnswer (s : State) (op : HostOp) : State → Prop where
  | plain (v : Word) : ReadAnswer s op (reply s v)
  | refused (v : Word) (why : ReadRefused s op) : ReadAnswer s op (reply (refuseAccess s) v)

section Reads

variable {s t : State} {op : HostOp}

theorem readAnswer_hostRead32 {off : Nat} (h : hostRead32 s off = .next t) : ReadAnswer s (.read32 off) t := by
  obtain ⟨hok, rfl⟩ := hostRead32_next h
  cases hr : regAt off with
  | arg i =>
    obtain rfl := eq_of_regAt_arg (regOffsetOk_iff.mp hok).1 hr
    cases hb : s.status.busy with
    | true => rw [afterRegRead_arg_busy hb]; exact .refused _ (.arg i hb)
    | false => rw [afterRegRead_arg_idle hb]; exact .plain _
  | _ => exact .plain _

theorem readAnswer_hostMemRead (s : State) (a : Nat) (n : MemWidth) :
    ReadAnswer s (.memRead a n) (hostMemRead s a n) := by
  cases hok : windowOk s a n.bytes with
  | true => rw [hostMemRead_carriedOut hok]; exact .plain _
  | false =>
    rw [hostMemRead_refused hok]
    obtain hb | hout := windowOk_eq_false_iff.mp hok
    · exact .refused _ (.memBusy a n hb)
    · exact .refused _ (.memOutside a n hout)

theorem readAnswer_hostAccess (hop : (∃ off, op = .read32 off) ∨ ∃ a n, op = .memRead a n)
    (h : hostAccess s op = .next t) : ReadAnswer s op t := by
  obtain ⟨off, rfl⟩ | ⟨a, n, rfl⟩ := hop
  · exact readAnswer_hostRead32 h
  · cases h; exact readAnswer_hostMemRead s a n

end Reads

/-- Settles O17: a read hands over its value, and a refused one sets HERR besides. -/
theorem hostReadsHaveNoSideEffect : Obligations.HostReadsHaveNoSideEffect := by
  intro s t op hop h
  cases readAnswer_hostAccess hop h with
  | plain v => exact ⟨rfl, rfl, rfl, rfl, rfl, rfl, rfl, id, fun hne => absurd rfl hne⟩
  | refused v why =>
    refine ⟨rfl, rfl, rfl, rfl, rfl, rfl, rfl, fun _ => rfl, fun _ => ?_⟩
    cases why with
    | arg i busy => exact .inl ⟨busy, .inl ⟨i, rfl⟩⟩
    | memBusy a n busy => exact .inl ⟨busy, .inr ⟨a, n, rfl⟩⟩
    | memOutside a n outside => exact .inr ⟨a, n, rfl, outside⟩

/-! ### What changes x and MEM -/

/-- The host accesses that rule R79 (3) allows to change x or MEM: the soft reset, and while BUSY = 0 a write of an x
register or of bytes inside MEM. -/
inductive MayChangeOperands (s : State) : HostOp → Prop where
  | softReset (v : Word) (srst : v.getLsbD 1 = true) : MayChangeOperands s (.write32 0x008 v)
  | arg (i : Fin 8) (v : Word) (idle : s.status.busy = false) : MayChangeOperands s (.write32 (0x020 + 4 * i.val) v)
  | mem (a : Nat) (d : MemData) (idle : s.status.busy = false) (inMem : a + d.width.bytes ≤ s.cfg.memBytes) :
      MayChangeOperands s (.memWrite a d)

/-- x and MEM are as before. -/
structure SameOperands (s t : State) : Prop where
  x   : t.x = s.x
  mem : t.mem = s.mem

section Operands

variable {s t : State} {op : HostOp}

theorem ReadAnswer.sameOperands (h : ReadAnswer s op t) : SameOperands s t := by cases h <;> exact ⟨rfl, rfl⟩

theorem sameOperands_writeCmd (s : State) (v : Word) : SameOperands s (writeCmd s v) := by
  rw [writeCmd]
  split <;> exact ⟨rfl, rfl⟩

/-- A register write changes x or MEM only as the soft reset or as a write of an x register (rules R26, R36). -/
theorem hostWrite32_operands {off : Nat} {v : Word} (h : hostWrite32 s off v = .next t) :
    SameOperands s t ∨ MayChangeOperands s (.write32 off v) := by
  obtain ⟨hok, rfl⟩ := hostWrite32_next h
  cases hr : regAt off with
  | ctrl =>
    obtain rfl := eq_of_regAt_ctrl hr
    cases hv : v.getLsbD 1 with
    | true => exact .inr (.softReset v hv)
    | false => rw [writeReg, writeCtrl_irqEn hv]; exact .inl ⟨rfl, rfl⟩
  | arg i =>
    obtain rfl := eq_of_regAt_arg (regOffsetOk_iff.mp hok).1 hr
    cases hb : s.status.busy with
    | true => rw [writeReg, writeArg_busy hb]; exact .inl ⟨rfl, rfl⟩
    | false => exact .inr (.arg i v hb)
  | cmd => exact .inl (sameOperands_writeCmd s v)
  | id | cfg | status | reserved => exact .inl ⟨rfl, rfl⟩

/-- A window write changes MEM only where it is carried out (rules R72, R73). -/
theorem hostMemWrite_operands (s : State) (a : Nat) (d : MemData) :
    SameOperands s (hostMemWrite s a d) ∨ MayChangeOperands s (.memWrite a d) := by
  cases hok : windowOk s a d.width.bytes with
  | true =>
    obtain ⟨hb, hin⟩ := windowOk_iff.mp hok
    exact .inr (.mem a d hb hin)
  | false => rw [hostMemWrite_refused hok]; exact .inl ⟨rfl, rfl⟩

theorem hostAccess_operands (h : hostAccess s op = .next t) : SameOperands s t ∨ MayChangeOperands s op := by
  cases op with
  | read32 off => exact .inl (readAnswer_hostRead32 h).sameOperands
  | write32 off v => exact hostWrite32_operands h
  | memRead a n => cases h; exact .inl (readAnswer_hostMemRead s a n).sameOperands
  | memWrite a d => cases h; exact hostMemWrite_operands s a d

end Operands

/-- Settles O45, by the agent that moves: the host's access keeps x and MEM or is one of those named, and a step
without an agent keeps both. -/
theorem whatChangesMemAndX : Obligations.WhatChangesMemAndX := by
  intro s t h hchange
  have hnot : ¬ SameOperands s t := fun hsame => hchange.elim (· hsame.x) (· hsame.mem)
  obtain ⟨op, rest, hp, hstep⟩ | ⟨rest, hp, -⟩ | ⟨hturn, hb, -⟩ | ⟨-, -, hstep⟩ := step_cases s
  · rw [hstep] at h
    obtain hsame | hmay := hostAccess_operands h
    · exact absurd ⟨hsame.x, hsame.mem⟩ hnot
    · cases hmay with
      | softReset v srst => exact .inr (.inr (.inl ⟨v, rest, hp, srst⟩))
      | arg i v idle => exact .inr (.inr (.inr (.inl ⟨idle, i, v, rest, hp⟩)))
      | mem a d idle inMem => exact .inr (.inr (.inr (.inr ⟨idle, a, d, rest, hp, inMem⟩)))
  · exact .inr (.inl ⟨rest, hp⟩)
  · exact .inl ⟨hb, hturn⟩
  · rw [hstep] at h
    cases h
    exact absurd ⟨rfl, rfl⟩ hnot

/-! ### The next event -/

section NextEvent

variable {s : State}

theorem dropEvent_of_cons {ev : Event} {rest : List Event} (h : s.port.pending = ev :: rest) :
    dropEvent s = { s with port := { s.port with pending := rest } } := by rw [dropEvent, h, List.tail_cons]

/-- At the engine's turn with BUSY = 0 only the event is taken (rule R282, log entries 4, 5). -/
theorem step_of_idle (hb : s.status.busy = false) (h : nextTurn s = engineTurn (dropEvent s)) :
    step s = .next (dropEvent s) := by rw [step, h, engineTurn_idle (by simpa using hb)]

end NextEvent

/-- Settles O4, by the first of the pending events. -/
theorem stepTakesTheNextEvent : Obligations.StepTakesTheNextEvent := by
  refine ⟨fun s op rest hp => ?_, fun s hb hp => ?_, fun s rest hb hp => ?_⟩
  · rw [step_of_host hp, dropEvent_of_cons hp]
  · rw [step_of_idle hb (nextTurn_nil hp), dropEvent_of_nil hp]
  · rw [step_of_idle hb (nextTurn_engine hp), dropEvent_of_cons hp]

end Sys2Proof.Machine

/-! PROOFS. The encoding (rules R90 to R98): each format of command word once, what `decode` accepts as one relation
between words and commands, and the two round trips. -/

namespace Sys2Proof.Machine

/-! ### The three formats -/

/-- The commands of format Z (rule R91). -/
def formatZ : List Instr :=
  [.nop, .fmul, .fred, .padd, .pdbl, .psmul, .ccblk, .p13clamp, .p13acc, .p13fin, .x25519, .edsign, .zeroize]

/-- The commands of format F (rule R92), each over its flag. -/
def formatF : List (Bool → Instr) := [.sha256c, .sha512c, .mlstep]

/-- The CCQR whose indices stand in a word of format Q (rules R93, R100). -/
def quarterRoundOf (w : Word) : Instr :=
  .ccqr (.ofNat 4 (bitsOf w 11 8)) (.ofNat 4 (bitsOf w 15 12)) (.ofNat 4 (bitsOf w 19 16)) (.ofNat 4 (bitsOf w 23 20))

/-- The word stands for the command: opcode, must-be-zero bits and immediates, format by format (rules R91 to R98). -/
inductive Denotes (w : Word) : Instr → Prop where
  | z {i : Instr} (format : i ∈ formatZ) (opcode : bitsOf w 7 0 = opcodeOf i) (reserved : bitsOf w 31 8 = 0) :
      Denotes w i
  | f {c : Bool → Instr} (format : c ∈ formatF) (opcode : bitsOf w 7 0 = opcodeOf (c false))
      (reserved : bitsOf w 31 9 = 0) : Denotes w (c (bitsOf w 8 8 == 1))
  | q (opcode : bitsOf w 7 0 = 0x30) (reserved : bitsOf w 31 24 = 0) (legal : (quarterRoundOf w).wf = true) :
      Denotes w (quarterRoundOf w)

section Decode

variable {w : Word} {i j : Instr} {c : Bool → Instr}

/-! ### What `decode` accepts -/

theorem decodeZ_eq_ok : decodeZ w i = .ok j ↔ bitsOf w 31 8 = 0 ∧ i = j := by
  rw [decodeZ]
  split <;> simp [*]

theorem decodeF_eq_ok : decodeF w c = .ok j ↔ bitsOf w 31 9 = 0 ∧ c (bitsOf w 8 8 == 1) = j := by
  rw [decodeF]
  split <;> simp [*]

theorem decodeQ_eq_ok :
    decodeQ w = .ok j ↔ bitsOf w 31 24 = 0 ∧ (quarterRoundOf w).wf = true ∧ quarterRoundOf w = j := by
  rw [decodeQ, quarterRoundOf]
  split_ifs <;> simp [*]

theorem decode_of_formatZ (hi : i ∈ formatZ) (hop : bitsOf w 7 0 = opcodeOf i) : decode w = decodeZ w i := by
  cases i with
  | sha256c | sha512c | ccqr | mlstep => simp [formatZ] at hi
  | _ => rw [decode, hop]; rfl

theorem formatF_cases (hc : c ∈ formatF) : c = .sha256c ∨ c = .sha512c ∨ c = .mlstep := by simpa [formatF] using hc

theorem decode_of_formatF (hc : c ∈ formatF) (hop : bitsOf w 7 0 = opcodeOf (c false)) : decode w = decodeF w c := by
  obtain rfl | rfl | rfl := formatF_cases hc <;> (rw [decode, hop]; rfl)

theorem decode_of_formatQ (hop : bitsOf w 7 0 = 0x30) : decode w = decodeQ w := by rw [decode, hop]; rfl

theorem Denotes.decode_eq (h : Denotes w i) : decode w = .ok i := by
  cases h with
  | z format opcode reserved => rw [decode_of_formatZ format opcode]; exact decodeZ_eq_ok.mpr ⟨reserved, rfl⟩
  | f format opcode reserved => rw [decode_of_formatF format opcode]; exact decodeF_eq_ok.mpr ⟨reserved, rfl⟩
  | q opcode reserved legal => rw [decode_of_formatQ opcode]; exact decodeQ_eq_ok.mpr ⟨reserved, legal, rfl⟩

theorem denotes_of_decodeZ (h : decodeZ w i = .ok j) (hi : i ∈ formatZ) (hop : bitsOf w 7 0 = opcodeOf i) :
    Denotes w j := by
  obtain ⟨reserved, rfl⟩ := decodeZ_eq_ok.mp h
  exact .z hi hop reserved

theorem denotes_of_decodeF (h : decodeF w c = .ok j) (hc : c ∈ formatF) (hop : bitsOf w 7 0 = opcodeOf (c false)) :
    Denotes w j := by
  obtain ⟨reserved, rfl⟩ := decodeF_eq_ok.mp h
  exact .f hc hop reserved

theorem denotes_of_decodeQ (h : decodeQ w = .ok j) (hop : bitsOf w 7 0 = 0x30) : Denotes w j := by
  obtain ⟨reserved, legal, rfl⟩ := decodeQ_eq_ok.mp h
  exact .q hop reserved legal

/-- `decode` accepts nothing but what the formats say, opcode by opcode (rules R94, R95). -/
theorem denotes_of_decode (h : decode w = .ok i) : Denotes w i := by
  rw [decode] at h
  split at h
  case h_7 hop | h_8 hop | h_14 hop => exact denotes_of_decodeF h (by simp [formatF]) hop
  case h_9 hop => exact denotes_of_decodeQ h hop
  case h_18 => cases h
  all_goals exact denotes_of_decodeZ h (by simp [formatZ]) ‹_›

theorem decode_eq_ok_iff : decode w = .ok i ↔ Denotes w i := ⟨denotes_of_decode, Denotes.decode_eq⟩

/-! ### Encoding a decoded word -/

theorem immediatesOf_formatZ (hi : i ∈ formatZ) : immediatesOf i = 0 := by revert i; decide

theorem encode_formatF (hc : c ∈ formatF) (b : Bool) :
    encode (c b) = .ofNat 32 (opcodeOf (c false) + b.toNat * 2 ^ 8) := by
  obtain rfl | rfl | rfl := formatF_cases hc <;> rfl

theorem Denotes.encode_eq (h : Denotes w i) : encode i = w := by
  have hw := w.isLt
  cases h with
  | z format opcode reserved =>
    simp only [bitsOf] at opcode reserved
    apply BitVec.eq_of_toNat_eq
    rw [encode, ← opcode, immediatesOf_formatZ format, BitVec.toNat_ofNat]
    omega
  | f format opcode reserved =>
    simp only [bitsOf] at opcode reserved
    have hbit : (bitsOf w 8 8 == 1).toNat = w.toNat / 2 ^ 8 % 2 := by
      obtain h | h := Nat.mod_two_eq_zero_or_one (w.toNat / 256) <;> simp [bitsOf, h]
    apply BitVec.eq_of_toNat_eq
    rw [encode_formatF format, ← opcode, hbit, BitVec.toNat_ofNat]
    omega
  | q opcode reserved legal =>
    apply BitVec.eq_of_toNat_eq
    simp only [bitsOf] at opcode reserved
    simp only [quarterRoundOf, encode, opcodeOf, immediatesOf, bitsOf, BitVec.toNat_ofNat]
    omega

theorem wf_formatZ (hi : i ∈ formatZ) : i.wf = true := by revert i; decide

theorem wf_formatF (hc : c ∈ formatF) (b : Bool) : (c b).wf = true := by
  obtain rfl | rfl | rfl := formatF_cases hc <;> rfl

theorem Denotes.wf (h : Denotes w i) : i.wf = true := by
  cases h with
  | z format opcode reserved => exact wf_formatZ format
  | f format opcode reserved => exact wf_formatF format _
  | q opcode reserved legal => exact legal

end Decode

/-! ### Decoding an encoded command -/

section Encode

variable (qa qb qc qd : BitVec 4)

theorem toNat_encode_ccqr : (encode (.ccqr qa qb qc qd)).toNat =
    0x30 + (qa.toNat * 2 ^ 8 + qb.toNat * 2 ^ 12 + qc.toNat * 2 ^ 16 + qd.toNat * 2 ^ 20) := by
  have ha := qa.isLt
  have hb := qb.isLt
  have hc := qc.isLt
  have hd := qd.isLt
  simp only [encode, opcodeOf, immediatesOf, BitVec.toNat_ofNat]
  omega

/-- The four indices stand at their places in the word (rule R93). -/
theorem quarterRoundOf_encode : quarterRoundOf (encode (.ccqr qa qb qc qd)) = .ccqr qa qb qc qd := by
  have hw := toNat_encode_ccqr qa qb qc qd
  have ha := qa.isLt
  have hb := qb.isLt
  have hc := qc.isLt
  have hd := qd.isLt
  simp only [quarterRoundOf, bitsOf, hw]
  congr 1 <;> apply BitVec.eq_of_toNat_eq <;> simp only [BitVec.toNat_ofNat] <;> omega

end Encode

theorem denotes_encode_ccqr {qa qb qc qd : BitVec 4} (h : (Instr.ccqr qa qb qc qd).wf = true) :
    Denotes (encode (.ccqr qa qb qc qd)) (.ccqr qa qb qc qd) := by
  obtain ⟨opcode, reserved⟩ := Laws.OpcodeByte.ccqr qa qb qc qd
  have hq := Denotes.q opcode reserved (by rwa [quarterRoundOf_encode])
  rwa [quarterRoundOf_encode] at hq

/-- `Decode(Encode(c)) = c` (rule R98). -/
theorem decode_encode {i : Instr} (h : i.wf = true) : decode (encode i) = .ok i := by
  cases i with
  | sha256c b | sha512c b | mlstep b => cases b <;> rfl
  | ccqr qa qb qc qd => exact (denotes_encode_ccqr h).decode_eq
  | _ => rfl

/-! ### Field by field -/

theorem wf_ccqr_iff {qa qb qc qd : BitVec 4} :
    (Instr.ccqr qa qb qc qd).wf = true ↔ [qa.toNat, qb.toNat, qc.toNat, qd.toNat].Nodup := by
  simp [Instr.wf, BitVec.toNat_inj, and_assoc]

theorem wf_quarterRoundOf_iff {w : Word} : (quarterRoundOf w).wf = true ↔
    [bitsOf w 11 8, bitsOf w 15 12, bitsOf w 19 16, bitsOf w 23 20].Nodup := by
  have hindex : ∀ lo, (BitVec.ofNat 4 (bitsOf w (lo + 3) lo)).toNat = bitsOf w (lo + 3) lo := fun lo => by
    simp [bitsOf]
  rw [quarterRoundOf, wf_ccqr_iff, hindex 8, hindex 12, hindex 16, hindex 20]

/-- Rule R98: the words that stand for a command, by opcode and fields. -/
theorem exists_denotes_iff {w : Word} : (∃ i, Denotes w i) ↔
    (bitsOf w 7 0 ∈ formatZ.map opcodeOf ∧ bitsOf w 31 8 = 0) ∨
    (bitsOf w 7 0 ∈ formatF.map (fun c => opcodeOf (c false)) ∧ bitsOf w 31 9 = 0) ∨
    (bitsOf w 7 0 = 0x30 ∧ bitsOf w 31 24 = 0 ∧ (quarterRoundOf w).wf = true) := by
  constructor
  · rintro ⟨i, h⟩
    cases h with
    | z format opcode reserved => exact .inl ⟨opcode ▸ List.mem_map_of_mem format, reserved⟩
    | f format opcode reserved => exact .inr (.inl ⟨List.mem_map.mpr ⟨_, format, opcode.symm⟩, reserved⟩)
    | q opcode reserved legal => exact .inr (.inr ⟨opcode, reserved, legal⟩)
  · rintro (⟨hop, reserved⟩ | ⟨hop, reserved⟩ | ⟨opcode, reserved, legal⟩)
    · obtain ⟨i, format, opcode⟩ := List.mem_map.mp hop
      exact ⟨i, .z format opcode.symm reserved⟩
    · obtain ⟨c, format, opcode⟩ := List.mem_map.mp hop
      exact ⟨_, .f format opcode.symm reserved⟩
    · exact ⟨_, .q opcode reserved legal⟩

/-- A field above the bits already there is laid into the word by addition or by OR alike. -/
theorem or_shiftLeft_eq_add {a k : Nat} (h : a < 2 ^ k) (b : Nat) : a ||| b <<< k = a + b * 2 ^ k := by
  rw [Nat.or_comm, ← Nat.shiftLeft_add_eq_or_of_lt h, Nat.shiftLeft_eq, Nat.add_comm]

/-- Settles O1: the words that denote a command, and that each command is denoted by its encoding alone. -/
theorem decodeAndEncodeAgree : Obligations.DecodeAndEncodeAgree := by
  refine ⟨fun w => ?_, fun i => decode_encode, fun w i h => ?_, rfl, fun f => ?_, fun qa qb qc qd => ?_⟩
  · simp only [decode_eq_ok_iff, exists_denotes_iff, wf_quarterRoundOf_iff]
    rfl
  · have hd := denotes_of_decode h
    exact ⟨hd.encode_eq, hd.wf⟩
  · cases f <;> exact ⟨rfl, rfl, rfl⟩
  · have ha := qa.isLt
    have hb := qb.isLt
    have hc := qc.isLt
    rw [toNat_encode_ccqr, or_shiftLeft_eq_add (k := 8) (by decide), or_shiftLeft_eq_add (k := 12) (by omega),
      or_shiftLeft_eq_add (k := 16) (by omega), or_shiftLeft_eq_add (k := 20) (by omega)]
    omega

end Sys2Proof.Machine

/-! PROOFS. The number of command words (rule R97): the CCQR words are the embeddings of four places into sixteen
indices, and nineteen other words are commands. -/

namespace Sys2Proof.Machine

/-- The CCQR on four distinct indices. -/
def quarterRoundAt (e : Fin 4 ↪ BitVec 4) : Instr := .ccqr (e 0) (e 1) (e 2) (e 3)

/-- The commands of formats Z and F. -/
def otherCommands : List Instr := formatZ ++ formatF.flatMap fun c => [c false, c true]

/-! ### The legal CCQR commands -/

/-- Rule R97: four indices are legal when no two places hold the same one. -/
theorem wf_ccqr_iff_injective (f : Fin 4 → BitVec 4) :
    (Instr.ccqr (f 0) (f 1) (f 2) (f 3)).wf = true ↔ Function.Injective f := by
  have hlist : [(f 0).toNat, (f 1).toNat, (f 2).toNat, (f 3).toNat] = List.ofFn fun k => (f k).toNat := by
    simp [List.ofFn_succ]
  rw [wf_ccqr_iff, hlist, List.nodup_ofFn]
  exact ⟨fun h => Function.Injective.of_comp (f := BitVec.toNat) h, fun h => BitVec.toNat_injective.comp h⟩

theorem wf_quarterRoundAt (e : Fin 4 ↪ BitVec 4) : (quarterRoundAt e).wf = true :=
  (wf_ccqr_iff_injective e).mpr e.injective

theorem exists_quarterRoundAt {qa qb qc qd : BitVec 4} (h : (Instr.ccqr qa qb qc qd).wf = true) :
    ∃ e, quarterRoundAt e = .ccqr qa qb qc qd :=
  ⟨⟨![qa, qb, qc, qd], (wf_ccqr_iff_injective ![qa, qb, qc, qd]).mp h⟩, rfl⟩

theorem quarterRoundAt_injective : Function.Injective quarterRoundAt := by
  intro e e' h
  obtain ⟨h0, h1, h2, h3⟩ := Instr.ccqr.inj h
  ext1 k
  fin_cases k
  · exact h0
  · exact h1
  · exact h2
  · exact h3

theorem card_quarterRounds : Nat.card (Fin 4 ↪ BitVec 4) = 43680 := by
  rw [Nat.card_eq_fintype_card, Fintype.card_embedding_eq]
  rfl

/-! ### The words of the CCQR commands and the other words -/

theorem encode_inj {i j : Instr} (hi : i.wf = true) (hj : j.wf = true) (h : encode i = encode j) : i = j := by
  have hdecode := decode_encode hi
  rw [h, decode_encode hj] at hdecode
  exact (Except.ok.inj hdecode).symm

theorem setOf_decode_ccqr :
    {w : Word | ∃ qa qb qc qd, decode w = .ok (.ccqr qa qb qc qd)} = Set.range fun e => encode (quarterRoundAt e) := by
  ext w
  constructor
  · rintro ⟨qa, qb, qc, qd, h⟩
    have hd := denotes_of_decode h
    obtain ⟨e, he⟩ := exists_quarterRoundAt hd.wf
    exact ⟨e, (congrArg encode he).trans hd.encode_eq⟩
  · rintro ⟨e, rfl⟩
    exact ⟨_, _, _, _, decode_encode (wf_quarterRoundAt e)⟩

theorem ncard_decode_ccqr : {w : Word | ∃ qa qb qc qd, decode w = .ok (.ccqr qa qb qc qd)}.ncard = 43680 := by
  rw [setOf_decode_ccqr, Set.ncard_range_of_injective, card_quarterRounds]
  intro e e' h
  exact quarterRoundAt_injective (encode_inj (wf_quarterRoundAt e) (wf_quarterRoundAt e') h)

theorem mem_otherCommands_or_ccqr (i : Instr) : i ∈ otherCommands ∨ ∃ qa qb qc qd, i = .ccqr qa qb qc qd := by
  cases i with
  | ccqr qa qb qc qd => exact .inr ⟨qa, qb, qc, qd, rfl⟩
  | sha256c b | sha512c b | mlstep b => cases b <;> exact .inl (by decide)
  | _ => exact .inl (by decide)

theorem wf_of_mem_otherCommands {i : Instr} (h : i ∈ otherCommands) : i.wf = true := by revert i; decide

theorem ccqr_notMem_otherCommands (qa qb qc qd : BitVec 4) : .ccqr qa qb qc qd ∉ otherCommands := by
  simp [otherCommands, formatZ, formatF]

/-- The words of formats Z and F. -/
def otherWords : Finset Word := (otherCommands.map encode).toFinset

theorem mem_otherWords {w : Word} : w ∈ otherWords ↔ ∃ i ∈ otherCommands, decode w = .ok i := by
  rw [otherWords, List.mem_toFinset, List.mem_map]
  constructor
  · rintro ⟨i, hi, rfl⟩
    exact ⟨i, hi, decode_encode (wf_of_mem_otherCommands hi)⟩
  · rintro ⟨i, hi, h⟩
    exact ⟨i, hi, (denotes_of_decode h).encode_eq⟩

theorem card_otherWords : otherWords.card = 19 := by decide

theorem setOf_decode : {w : Word | ∃ i, decode w = .ok i} =
    {w | ∃ qa qb qc qd, decode w = .ok (.ccqr qa qb qc qd)} ∪ otherWords := by
  ext w
  constructor
  · rintro ⟨i, h⟩
    obtain hi | ⟨qa, qb, qc, qd, rfl⟩ := mem_otherCommands_or_ccqr i
    · exact .inr (mem_otherWords.mpr ⟨i, hi, h⟩)
    · exact .inl ⟨qa, qb, qc, qd, h⟩
  · rintro (⟨qa, qb, qc, qd, h⟩ | h)
    · exact ⟨_, h⟩
    · obtain ⟨i, -, h⟩ := mem_otherWords.mp h
      exact ⟨i, h⟩

theorem disjoint_ccqr_otherWords :
    Disjoint {w : Word | ∃ qa qb qc qd, decode w = .ok (.ccqr qa qb qc qd)} otherWords := by
  rw [Set.disjoint_left]
  rintro w ⟨qa, qb, qc, qd, h⟩ hw
  obtain ⟨i, hi, h'⟩ := mem_otherWords.mp hw
  rw [h] at h'
  cases h'
  exact ccqr_notMem_otherCommands qa qb qc qd hi

/-- Settles O2: the CCQR words are counted as embeddings, and the other words are nineteen. -/
theorem commandWordsAreCounted : Obligations.CommandWordsAreCounted := by
  refine ⟨?_, ncard_decode_ccqr⟩
  rw [setOf_decode, Set.ncard_union_eq disjoint_ccqr_otherWords, ncard_decode_ccqr, Set.ncard_coe_finset,
    card_otherWords]

/-- Settles O3, by running `decode` on each word. -/
theorem writtenWordsDecode : Obligations.WrittenWordsDecode :=
  ⟨rfl, rfl, rfl, rfl, rfl, rfl, rfl, rfl, rfl, rfl, rfl, rfl, rfl⟩

end Sys2Proof.Machine

/-! PROOFS. What a command depends on and what it changes (rules R102, R103, R106): the frame of every command, and two
runs on states that agree on the operands. -/

namespace Sys2Proof.Machine

/-! ### The frame -/

section Frame

variable {i : Instr} {s t : State}

theorem exec_sameAround (h : exec i s = .next t) : SameAround s t := by
  rw [exec_eq] at h
  cases h
  exact sameAround_complete s _

/-- Inside its ranges a command but ZEROIZE keeps x, and the bytes outside its outputs. -/
theorem RanInRange.frame (h : RanInRange i s t) (hwf : s.mem.wf) (hi : i ≠ .zeroize) :
    t.x = s.x ∧
    ∀ a, (∀ r ∈ operands i s, r.access ≠ .input → ¬ InRegion r.addr r.len a) → t.mem.byte a = s.mem.byte a := by
  cases h with
  | nop => exact ⟨rfl, fun _ _ => rfl⟩
  | zeroize => exact absurd rfl hi
  | wrote region output low high error =>
    refine ⟨rfl, fun a hout => Memory.byte_write_outside hwf fun ha => hout _ region output ?_⟩
    simp only [InRegion] at ha ⊢
    omega

end Frame

/-- Settles O42: an error writes nothing, and inside its ranges a command writes inside an output. -/
theorem commandsWriteOnlyTheirOutputs : Obligations.CommandsWriteOnlyTheirOutputs := by
  intro i s t hwf hi h
  refine ⟨exec_sameAround h, ?_⟩
  obtain ⟨-, rfl⟩ | ⟨-, -, rfl⟩ | ⟨-, -, hran⟩ := exec_cases h
  · exact ⟨rfl, fun _ _ => rfl⟩
  · exact ⟨rfl, fun _ _ => rfl⟩
  · exact hran.frame hwf hi

/-! ### Two MEMs with the same bytes in a region -/

/-- The two MEMs hold the same bytes in the region. -/
def SameBytes (s u : State) (addr n : Nat) : Prop := ∀ a, InRegion addr n a → s.mem.byte a = u.mem.byte a

namespace SameBytes

variable {s u : State} {addr n : Nat}

theorem sub (h : SameBytes s u addr n) {b k : Nat} (low : addr ≤ b) (high : b + k ≤ addr + n) : SameBytes s u b k :=
  fun a ha => h a (by simp only [InRegion] at ha ⊢; omega)

theorem read (h : SameBytes s u addr n) : u.read addr n = s.read addr n := (Memory.read_congr h).symm

theorem readLE (h : SameBytes s u addr n) : u.readLE addr n = s.readLE addr n := congrArg LE h.read

theorem readAcc (h : SameBytes s u addr 17) : u.readAcc addr = s.readAcc addr := congrArg (· % q) h.readLE

/-- A field element inside the region. -/
theorem readField_at (h : SameBytes s u addr n) {k : Nat} (hk : k + 32 ≤ n) :
    u.readField (addr + k) = s.readField (addr + k) :=
  congrArg fdec (h.sub (Nat.le_add_right addr k) (by omega)).readLE

/-- The field element that the region begins with. -/
theorem readField_start (h : SameBytes s u addr n) (hn : 32 ≤ n) : u.readField addr = s.readField addr :=
  h.readField_at (k := 0) (by omega)

theorem readField (h : SameBytes s u addr 32) : u.readField addr = s.readField addr := h.readField_start (le_refl _)

theorem readPoint (h : SameBytes s u addr 128) : u.readPoint addr = s.readPoint addr := by
  simp only [State.readPoint, h.readField_start (by decide), h.readField_at (k := 32) (by decide),
    h.readField_at (k := 64) (by decide), h.readField_at (k := 96) (by decide)]

theorem readLadder (h : SameBytes s u addr 160) : u.readLadder addr = s.readLadder addr := by
  simp only [State.readLadder, h.readField_at (k := 32) (by decide), h.readField_at (k := 64) (by decide),
    h.readField_at (k := 96) (by decide), h.readField_at (k := 128) (by decide)]

end SameBytes

/-! ### Two states that agree on what a command may use -/

/-- The two states have the same x and parameters, and the same bytes in every region that the command reads. -/
structure SameInputs (i : Instr) (s u : State) : Prop where
  x      : s.x = u.x
  cfg    : s.cfg = u.cfg
  inputs : ∀ r ∈ operands i s, r.access ≠ .output → SameBytes s u r.addr r.len

namespace SameInputs

variable {i : Instr} {s u : State}

theorem input (h : SameInputs i s u) {addr n : Nat} (hr : ⟨.input, addr, n⟩ ∈ operands i s) : SameBytes s u addr n :=
  h.inputs _ hr (by simp)

theorem inout (h : SameInputs i s u) {addr n : Nat} (hr : ⟨.inout, addr, n⟩ ∈ operands i s) : SameBytes s u addr n :=
  h.inputs _ hr (by simp)

theorem arg (h : SameInputs i s u) (k : Fin 8) : u.arg k = s.arg k := by rw [State.arg, State.arg, h.x]

theorem operands_eq (h : SameInputs i s u) : operands i u = operands i s := by simp only [operands, h.arg]

theorem valueOk_eq (h : SameInputs i s u) : valueOk i u = valueOk i s := by simp only [valueOk, h.arg]

theorem operandsOk_eq (h : SameInputs i s u) : operandsOk i u = operandsOk i s := by
  simp only [operandsOk, h.operands_eq, h.cfg]

theorem fieldBytes (h : SameInputs i s u) (v : Nat) : u.fieldBytes v = s.fieldBytes v := by
  rw [State.fieldBytes, State.fieldBytes, h.cfg]

theorem pointBytes (h : SameInputs i s u) (P : Point) : u.pointBytes P = s.pointBytes P := by
  simp only [State.pointBytes, h.fieldBytes]

theorem ladderBytes (h : SameInputs i s u) (l : Ladder) : u.ladderBytes l = s.ladderBytes l := by
  simp only [State.ladderBytes, h.fieldBytes]

end SameInputs

/-- Two effects of a command: the same x, or one write of the same bytes at the same place, over every region that the
command writes without reading it. -/
inductive EffectsAlike (i : Instr) (s u : State) : Effect → Effect → Prop where
  | same (e : Effect) (noOperands : operands i s = []) : EffectsAlike i s u e e
  | wrote {addr : Nat} {bs : List Byte} {err : Option CmdError}
      (covers : ∀ r ∈ operands i s, r.access = .output → addr = r.addr ∧ r.len = bs.length) :
      EffectsAlike i s u ⟨s.x, s.mem.write addr bs, err⟩ ⟨u.x, u.mem.write addr bs, err⟩

section Effects

variable {i : Instr} {s u : State}

/-- A store of the same `n` bytes in both states. -/
theorem EffectsAlike.store {addr n : Nat} {bs : List Byte} (len : bs.length = n)
    (covers : ∀ r ∈ operands i s, r.access = .output → addr = r.addr ∧ r.len = n) :
    EffectsAlike i s u (s.store addr bs) (u.store addr bs) := .wrote (len ▸ covers)

/-- A store of the same shared secret in both states: its error depends on the bytes alone (rule R215). -/
theorem EffectsAlike.storeSharedSecret {addr n : Nat} {bs : List Byte} (len : bs.length = n)
    (covers : ∀ r ∈ operands i s, r.access = .output → addr = r.addr ∧ r.len = n) :
    EffectsAlike i s u (s.storeSharedSecret addr bs) (u.storeSharedSecret addr bs) := .wrote (len ▸ covers)

/-- A command's effect uses x, the parameters and the regions it reads, and nothing else of the state. -/
theorem effectsAlike_effectOf (h : SameInputs i s u) : EffectsAlike i s u (effectOf i s) (effectOf i u) := by
  cases i with
  | nop => exact .wrote (addr := 0) (bs := []) (by simp [operands])
  | zeroize => exact .same _ rfl
  | fmul =>
    have h1 : SameBytes s u (s.arg 1) 32 := h.input (by simp [operands])
    have h2 : SameBytes s u (s.arg 2) 32 := h.input (by simp [operands])
    simp only [effectOf, fmulEffect, h.arg, h.fieldBytes, h1.readField, h2.readField]
    exact .store (fieldBytes_length _ _) (by simp [operands])
  | fred =>
    have h1 : SameBytes s u (s.arg 1) 32 := h.input (by simp [operands])
    simp only [effectOf, fredEffect, h.arg, h1.readLE]
    exact .store (toLE_length _ _) (by simp [operands])
  | padd =>
    have h1 : SameBytes s u (s.arg 1) 128 := h.input (by simp [operands])
    have h2 : SameBytes s u (s.arg 2) 128 := h.input (by simp [operands])
    simp only [effectOf, paddEffect, h.arg, h.pointBytes, h1.readPoint, h2.readPoint]
    exact .store (pointBytes_length _ _) (by simp [operands])
  | pdbl =>
    have h1 : SameBytes s u (s.arg 1) 128 := h.input (by simp [operands])
    simp only [effectOf, pdblEffect, h.arg, h.pointBytes, h1.readPoint]
    exact .store (pointBytes_length _ _) (by simp [operands])
  | psmul =>
    have h1 : SameBytes s u (s.arg 1) 32 := h.input (by simp [operands])
    have h2 : SameBytes s u (s.arg 2) 128 := h.input (by simp [operands])
    simp only [effectOf, psmulEffect, h.arg, h.pointBytes, h1.readLE, h2.readPoint]
    exact .store (pointBytes_length _ _) (by simp [operands])
  | sha256c iv =>
    have h1 : SameBytes s u (s.arg 1) 64 := h.input (by simp [operands])
    cases iv with
    | true =>
      simp only [effectOf, sha256cEffect, h.arg, if_true, h1.read]
      exact .store (n := 32) (by simp) (by simp [operands])
    | false =>
      have h0 : SameBytes s u (s.arg 0) 32 := h.inout (by simp [operands])
      simp only [effectOf, sha256cEffect, h.arg, h0.read, h1.read]
      exact .store (n := 32) (by simp) (by simp [operands])
  | sha512c iv =>
    have h1 : SameBytes s u (s.arg 1) 128 := h.input (by simp [operands])
    cases iv with
    | true =>
      simp only [effectOf, sha512cEffect, h.arg, if_true, h1.read]
      exact .store (n := 64) (by simp) (by simp [operands])
    | false =>
      have h0 : SameBytes s u (s.arg 0) 64 := h.inout (by simp [operands])
      simp only [effectOf, sha512cEffect, h.arg, h0.read, h1.read]
      exact .store (n := 64) (by simp) (by simp [operands])
  | ccqr qa qb qc qd =>
    have h0 : SameBytes s u (s.arg 0) 64 := h.inout (by simp [operands])
    simp only [effectOf, ccqrEffect, h.arg, h0.read]
    exact .store rfl (by simp [operands])
  | ccblk =>
    have h1 : SameBytes s u (s.arg 1) 32 := h.input (by simp [operands])
    have h2 : SameBytes s u (s.arg 2) 12 := h.input (by simp [operands])
    simp only [effectOf, ccblkEffect, h.arg, ← h.x, h1.read, h2.read]
    exact .store (chacha20block_length (wordsLE_length _ _) (wordsLE_length _ _) _) (by simp [operands])
  | p13clamp =>
    have h1 : SameBytes s u (s.arg 1) 16 := h.input (by simp [operands])
    simp only [effectOf, p13clampEffect, h.arg, h1.readLE]
    exact .store (toLE_length _ _) (by simp [operands])
  | p13acc =>
    have h0 : SameBytes s u (s.arg 0) 17 := h.inout (by simp [operands])
    have h1 : SameBytes s u (s.arg 1) 16 := h.input (by simp [operands])
    have h2 : SameBytes s u (s.arg 2) (s.arg 3) := h.input (by simp [operands])
    simp only [effectOf, p13accEffect, h.arg, ← h.cfg, h0.readAcc, h1.readLE, h2.read]
    exact .store (toLE_length _ _) (by simp [operands])
  | p13fin =>
    have h1 : SameBytes s u (s.arg 1) 17 := h.input (by simp [operands])
    have h2 : SameBytes s u (s.arg 2) 16 := h.input (by simp [operands])
    simp only [effectOf, p13finEffect, h.arg, h1.readAcc, h2.readLE]
    exact .store (toLE_length _ _) (by simp [operands])
  | mlstep sw =>
    have h0 : SameBytes s u (s.arg 0) 160 := h.inout (by simp [operands])
    simp only [effectOf, mlstepEffect, h.arg, h.ladderBytes, h0.readField_start (by decide), h0.readLadder]
    exact .store rfl (by simp [operands])
  | x25519 =>
    have h1 : SameBytes s u (s.arg 1) 32 := h.input (by simp [operands])
    have h2 : SameBytes s u (s.arg 2) 32 := h.input (by simp [operands])
    simp only [effectOf, x25519Effect, h.arg, h1.read, h2.read]
    exact .storeSharedSecret (x25519_length _ _) (by simp [operands])
  | edsign =>
    have h1 : SameBytes s u (s.arg 1) 32 := h.input (by simp [operands])
    have h2 : SameBytes s u (s.arg 2) (s.arg 3) := h.input (by simp [operands])
    simp only [effectOf, edsignEffect, h.arg, h1.read, h2.read]
    exact .store (edSign_length _ _) (by simp [operands])

/-- The same bytes written over two MEMs: the same byte inside, and outside if it was the same before. -/
theorem Memory.byte_write_congr {m m' : Memory} (hm : m.wf) (hm' : m'.wf) {addr a : Nat} {bs : List Byte}
    (h : ¬ InRegion addr bs.length a → m.byte a = m'.byte a) :
    (m.write addr bs).byte a = (m'.write addr bs).byte a := by
  rw [Memory.byte_write hm, Memory.byte_write hm']
  split
  · rfl
  · exact h ‹_›

variable {e e' : Effect}

theorem EffectsAlike.err_eq (h : EffectsAlike i s u e e') : e.err = e'.err := by cases h <;> rfl

theorem EffectsAlike.x_eq (h : EffectsAlike i s u e e') (hx : s.x = u.x) : e.x = e'.x := by
  cases h with
  | same e noOperands => rfl
  | wrote covers => exact hx

/-- A region that is read as well as written holds the same bytes before; one that is only written is overwritten. -/
theorem EffectsAlike.byte_eq (h : EffectsAlike i s u e e') (hin : SameInputs i s u) (hs : s.mem.wf) (hu : u.mem.wf)
    {r : Region} (hr : r ∈ operands i s) {a : Nat} (ha : InRegion r.addr r.len a) :
    e.mem.byte a = e'.mem.byte a := by
  cases h with
  | same e noOperands => rfl
  | wrote covers =>
    refine Memory.byte_write_congr hs hu fun hout => hin.inputs r hr (fun hacc => hout ?_) a ha
    obtain ⟨rfl, hlen⟩ := covers r hr hacc
    exact hlen ▸ ha

/-- A command ends alike on two such states: the same check fails in both, or both have effects that are alike. -/
theorem exec_alike (h : SameInputs i s u) : ∃ e e', exec i s = .next (complete s e) ∧ exec i u = .next (complete u e') ∧
    e.err = e'.err ∧ e.x = e'.x ∧
    (valueOk i s = true → operandsOk i s = true → EffectsAlike i s u e e') := by
  rw [exec_eq, exec_eq]
  cases hv : valueOk i s with
  | false =>
    exact ⟨_, _, runCommand_argRange hv, runCommand_argRange (h.valueOk_eq.trans hv), rfl, h.x, fun hv' => by cases hv'⟩
  | true =>
    have hvu : valueOk i u = true := h.valueOk_eq.trans hv
    cases ho : operandsOk i s with
    | false =>
      exact ⟨_, _, runCommand_addrRange hv ho, runCommand_addrRange hvu (h.operandsOk_eq.trans ho), rfl, h.x,
        fun _ ho' => by cases ho'⟩
    | true =>
      have halike := effectsAlike_effectOf h
      exact ⟨_, _, runCommand_ok hv ho, runCommand_ok hvu (h.operandsOk_eq.trans ho), halike.err_eq, halike.x_eq h.x,
        fun _ _ => halike⟩

end Effects

/-- Settles O43: the checks and the effect of a command use x, the parameters and the regions it reads. -/
theorem resultsDependOnlyOnOperands : Obligations.ResultsDependOnlyOnOperands := by
  intro i s u s' u' hs hu hx hcfg hst hin hexec hexec'
  have hsame : SameInputs i s u := ⟨hx, hcfg, hin⟩
  obtain ⟨e, e', he, he', herr, hxe, halike⟩ := exec_alike hsame
  obtain rfl := Host.Outcome.next.inj (he.symm.trans hexec)
  obtain rfl := Host.Outcome.next.inj (he'.symm.trans hexec')
  refine ⟨?_, hxe, fun hv ho r hr _ a ha => ?_⟩
  · rw [complete_status, complete_status, hst, herr]
  · exact (halike hv (operandsOk_iff.mpr ho)).byte_eq hsame hs hu hr ha

end Sys2Proof.Machine

/-! PROOFS. How a command statement is met: a command that stores one region, the command with a region outside MEM, and
the words with a reserved bit; and the field commands FMUL and FRED (rules R130, R131). -/

namespace Sys2Proof.Machine

/-! ### What the statements about a command ask -/

section Command

variable {i : Instr} {s : State}

/-- Inside its ranges a command has its own effect. -/
theorem exec_inRange (hv : valueOk i s = true) (ho : operandsOk i s = true) :
    exec i s = .next (complete s (effectOf i s)) := (exec_eq i s).trans (runCommand_ok hv ho)

/-- A command whose effect inside its ranges is one store stores exactly that. -/
theorem storesExactly_of_store {addr n : Nat} {bs : List Byte} (hwf : s.mem.wf) (hv : valueOk i s = true)
    (ho : operandsOk i s = true) (heff : effectOf i s = s.store addr bs) (hlen : bs.length = n) :
    StoresExactly i s addr n bs := by
  subst hlen
  refine ⟨_, exec_inRange hv ho, completesOk_complete ?_, ?_, ?_, fun a ha => ?_⟩
  · rw [heff, store_err]
  · rw [complete_x, heff, store_x]
  · rw [complete_mem, heff, store_mem, Memory.read_write_same hwf]
  · rw [complete_mem, heff, store_mem, Memory.byte_write_outside hwf ha]

/-- With a region not inside MEM a command ends with ADDR_RANGE (rule R254). -/
theorem raisesOnly_addrRange (hv : valueOk i s = true) (ho : ¬ operandsOk i s = true) : RaisesOnly i s 0x03 :=
  ⟨_, (exec_eq i s).trans (runCommand_addrRange hv (Bool.eq_false_of_not_eq_true ho)),
    completesErr_complete (err := .addrRange) rfl, rfl, rfl⟩

/-- The reserved field of a command of format Z is bits 31:8 (rules R91, R96). -/
theorem rejectsReservedBits_of_formatZ (hi : i ∈ formatZ) : RejectsReservedBits (opcodeOf i) 8 :=
  fun _ hop hreserved => (decode_of_formatZ hi hop).trans (if_neg hreserved)

end Command

/-! ### FMUL and FRED -/

section FieldCommands

variable {s : State}

theorem operandsOk_fmul_iff : operandsOk .fmul s = true ↔
    s.arg 0 + 32 ≤ s.cfg.memBytes ∧ s.arg 1 + 32 ≤ s.cfg.memBytes ∧ s.arg 2 + 32 ≤ s.cfg.memBytes := by
  simp [operandsOk_iff, operands]

theorem operandsOk_fred_iff : operandsOk .fred s = true ↔
    s.arg 0 + 32 ≤ s.cfg.memBytes ∧ s.arg 1 + 32 ≤ s.cfg.memBytes := by
  simp [operandsOk_iff, operands]

end FieldCommands

/-- Settles O22: FMUL's effect is one store. -/
theorem fmulStoresTheProduct : Obligations.FmulStoresTheProduct := by
  refine ⟨fun s hwf h0 h1 h2 => ?_, fun s hout => ?_, rfl, rejectsReservedBits_of_formatZ (i := .fmul) (by decide)⟩
  · exact storesExactly_of_store hwf rfl (operandsOk_fmul_iff.mpr ⟨h0, h1, h2⟩) rfl (fieldBytes_length s _)
  · refine raisesOnly_addrRange rfl fun ho => ?_
    obtain ⟨h0, h1, h2⟩ := operandsOk_fmul_iff.mp ho
    omega

/-- The canonical residue fits its 32 bytes, so reading them gives it back (rule R131). -/
theorem LE_toLE_mod_p (c : Nat) : LE (toLE (c % p) 32) = c % p :=
  LE_toLE_of_lt ((Nat.mod_lt c p_pos).trans (by decide))

/-- Settles O23: FRED's effect is one store, of bytes that hold the residue itself. -/
theorem fredStoresTheCanonicalForm : Obligations.FredStoresTheCanonicalForm := by
  refine ⟨fun s hwf h0 h1 => ?_, fun c => ⟨Nat.mod_mod c p, LE_toLE_mod_p c⟩, fun s hout => ?_, rfl,
    rejectsReservedBits_of_formatZ (i := .fred) (by decide)⟩
  · exact storesExactly_of_store hwf rfl (operandsOk_fred_iff.mpr ⟨h0, h1⟩) rfl (toLE_length _ _)
  · refine raisesOnly_addrRange rfl fun ho => ?_
    obtain ⟨h0, h1⟩ := operandsOk_fred_iff.mp ho
    omega

end Sys2Proof.Machine

/-! PROOFS. Field arithmetic mod 2^255 - 19 (rules R120 to R125): the operations over the integers, p is prime, and the
inverse. -/

namespace Sys2Proof.Machine

/-! ### The operations over the integers (rules R121 to R124) -/

/-- The modulus as the rules write it. -/
theorem p_cast : (p : Int) = 2 ^ 255 - 19 := by decide

theorem p_sub_two : p - 2 = 2 ^ 255 - 21 := by decide

theorem fadd_cast (a b : Nat) : (fadd a b : Int) = ((a : Int) + b) % p := by rw [fadd, Int.natCast_mod, Nat.cast_add]

theorem fmul_cast (a b : Nat) : (fmul a b : Int) = ((a : Int) * b) % p := by rw [fmul, Int.natCast_mod, Nat.cast_mul]

/-- Adding p - b is subtracting b, up to one p. -/
theorem fsub_cast (a : Nat) {b : Nat} (hb : b < p) : (fsub a b : Int) = ((a : Int) - b) % p := by
  have hshift : (a : Int) + (p - b) = a - b + p := by ring
  rw [fsub, Nat.mod_eq_of_lt hb, Int.natCast_mod, Nat.cast_add, Nat.cast_sub hb.le, hshift, Int.add_emod_right]

theorem fneg_cast {a : Nat} (ha : a < p) : (fneg a : Int) = ((p : Int) - a) % p := by
  rw [fneg, Nat.mod_eq_of_lt ha, Int.natCast_mod, Nat.cast_sub ha.le]

/-- Settles O49: each operation is the integer one, as the modulus stands in the rules. -/
theorem fieldOperations : Obligations.FieldOperations := by
  refine ⟨fun a b ha hb => ?_, by decide, by decide⟩
  rw [← p_cast]
  exact ⟨fadd_cast a b, fsub_cast a hb, fmul_cast a b, rfl, fneg_cast ha⟩

/-! ### The exponentiation (rule R125) -/

theorem fmul_modEq (a b : Nat) : fmul a b ≡ a * b [MOD p] := Nat.mod_modEq _ p

/-- One round squares, and multiplies by `a` where the bit of the exponent is set. -/
theorem fpowFrom_round (a acc : Nat) (b : Bool) :
    (if b then fmul (fsq acc) a else fsq acc) ≡ acc ^ 2 * a ^ b.toNat [MOD p] := by
  have hsq : fsq acc ≡ acc ^ 2 [MOD p] := pow_two acc ▸ fmul_modEq acc acc
  cases b with
  | false => simpa using hsq
  | true => simpa using (fmul_modEq _ a).trans (hsq.mul_right a)

/-- The rounds for the k low bits of `e` raise the accumulator to 2^k and multiply by `a` to those bits. -/
theorem fpowFrom_modEq (a e k acc : Nat) : fpowFrom a e k acc ≡ acc ^ 2 ^ k * a ^ (e % 2 ^ k) [MOD p] := by
  induction k generalizing acc with
  | zero => simp [fpowFrom, Nat.mod_one, Nat.ModEq.refl]
  | succ k ih =>
    have hbits : e % 2 ^ (k + 1) = e % 2 ^ k + 2 ^ k * (e.testBit k).toNat := by
      rw [Nat.mod_pow_succ, Nat.toNat_testBit]
    calc fpowFrom a e (k + 1) acc
        ≡ (if e.testBit k then fmul (fsq acc) a else fsq acc) ^ 2 ^ k * a ^ (e % 2 ^ k) [MOD p] := ih _
      _ ≡ (acc ^ 2 * a ^ (e.testBit k).toNat) ^ 2 ^ k * a ^ (e % 2 ^ k) [MOD p] :=
        ((fpowFrom_round a acc _).pow _).mul_right _
      _ = acc ^ 2 ^ (k + 1) * a ^ (e % 2 ^ (k + 1)) := by rw [hbits]; ring

theorem fpowFrom_one_modEq (a e k : Nat) : fpowFrom a e k 1 ≡ a ^ (e % 2 ^ k) [MOD p] := by
  simpa using fpowFrom_modEq a e k 1

theorem fpowFrom_lt (a e k : Nat) {acc : Nat} (h : acc < p) : fpowFrom a e k acc < p := by
  induction k generalizing acc with
  | zero => exact h
  | succ k ih =>
    rw [fpowFrom]
    split
    · exact ih (fmul_lt _ a)
    · exact ih (fsq_lt acc)

/-- The exponent has 255 bits, so the rounds of `finv` use all of it. -/
theorem finv_eq (a : Nat) : finv a = a ^ (p - 2) % p := by
  have hmod := fpowFrom_one_modEq a (p - 2) 255
  rw [Nat.mod_eq_of_lt (show p - 2 < 2 ^ 255 by decide)] at hmod
  rw [finv, ← hmod, Nat.mod_eq_of_lt (fpowFrom_lt a _ _ (by decide))]

theorem finv_of_dvd {a : Nat} (h : p ∣ a) : finv a = 0 := by
  rw [finv_eq]
  exact Nat.mod_eq_zero_of_dvd (dvd_pow h (by decide))

/-- Settles O50: the rounds compute the power, and p divides the power if it divides `a`. -/
theorem fieldInverseIsTheFermatPower : Obligations.FieldInverseIsTheFermatPower :=
  ⟨fun a => p_sub_two ▸ finv_eq a, finv_of_dvd (dvd_zero p)⟩

/-! ### The primality of p (rule R120)

Lucas's test down the chain of the large factors of p - 1. Of its conditions `norm_num` settles the division and the
small primes, and `reduce_mod_char` computes the powers of the witness. -/

/-- Lucas's test from the prime factors of `n - 1`, each of at most the k-th power in it: `a` has order `n - 1`. -/
theorem prime_of_lucas {n : ℕ} (a : ZMod n) (k : ℕ) (qs : List ℕ) (hdvd : n - 1 ∣ qs.prod ^ k)
    (hone : a ^ (n - 1) = 1) (hne : qs.Forall fun q => a ^ ((n - 1) / q) ≠ 1) (hprime : qs.Forall Nat.Prime) :
    n.Prime := by
  rw [List.forall_iff_forall_mem] at hne hprime
  refine lucas_primality n a hone fun r hr hrn => ?_
  obtain ⟨q, hq, hrq⟩ := hr.prime.dvd_prod_iff.mp (hr.dvd_of_dvd_pow (hrn.trans hdvd))
  rw [(Nat.prime_dvd_prime_iff_eq hr (hprime q hq)).mp hrq]
  exact hne q hq

theorem prime_2773320623 : Nat.Prime 2773320623 := by
  refine prime_of_lucas 5 1 [2, 2437, 569003] ?_ ?_ ?_ ?_ <;> norm_num
  · reduce_mod_char
  · reduce_mod_char; decide

theorem prime_72106336199 : Nat.Prime 72106336199 := by
  refine prime_of_lucas 7 1 [2, 13, 2773320623] ?_ ?_ ?_ ⟨?_, ?_, prime_2773320623⟩ <;> norm_num
  · reduce_mod_char
  · reduce_mod_char; decide

theorem prime_1919519569386763 : Nat.Prime 1919519569386763 := by
  refine prime_of_lucas 2 2 [2, 3, 7, 19, 47, 127, 8574133] ?_ ?_ ?_ ?_ <;> norm_num
  · reduce_mod_char
  · reduce_mod_char; decide

theorem prime_31757755568855353 : Nat.Prime 31757755568855353 := by
  refine prime_of_lucas 10 3 [2, 3, 31, 107, 223, 4153, 430751] ?_ ?_ ?_ ?_ <;> norm_num
  · reduce_mod_char
  · reduce_mod_char; decide

theorem prime_75445702479781427272750846543864801 : Nat.Prime 75445702479781427272750846543864801 := by
  refine prime_of_lucas 7 5 [2, 3, 5, 75707, 72106336199, 1919519569386763] ?_ ?_ ?_
    ⟨?_, ?_, ?_, ?_, prime_72106336199, prime_1919519569386763⟩ <;> norm_num
  · reduce_mod_char
  · reduce_mod_char; decide

theorem prime_74058212732561358302231226437062788676166966415465897661863160754340907 :
    Nat.Prime 74058212732561358302231226437062788676166966415465897661863160754340907 := by
  refine prime_of_lucas 2 1
    [2, 3, 353, 57467, 132049, 1923133, 31757755568855353, 75445702479781427272750846543864801] ?_ ?_ ?_
    ⟨?_, ?_, ?_, ?_, ?_, ?_, prime_31757755568855353, prime_75445702479781427272750846543864801⟩ <;> norm_num
  · reduce_mod_char
  · reduce_mod_char; decide

theorem prime_p : p.Prime := by
  rw [show p = 57896044618658097711785492504343953926634992332820282019728792003956564819949 by decide]
  refine prime_of_lucas 2 2
    [2, 3, 65147, 74058212732561358302231226437062788676166966415465897661863160754340907] ?_ ?_ ?_
    ⟨?_, ?_, ?_, prime_74058212732561358302231226437062788676166966415465897661863160754340907⟩ <;> norm_num
  · reduce_mod_char
  · reduce_mod_char; decide

/-! ### The inverse (rule R125) -/

/-- Settles O51: by Fermat's little theorem, the product being a^(p-1). -/
theorem fieldInverseInverts : Obligations.FieldInverseInverts := by
  intro a hpos hlt
  have hcoprime : a.Coprime p := (Nat.coprime_of_lt_prime hpos.ne' hlt prime_p).symm
  have hpow : a * a ^ (p - 2) = a ^ (p - 1) := (pow_succ' a (p - 2)).symm
  calc fmul a (finv a) = a ^ (p - 1) % p := by rw [fmul, finv_eq, Nat.mul_mod_mod, hpow]
    _ = 1 % p := Nat.totient_prime prime_p ▸ Nat.ModEq.pow_totient hcoprime
    _ = 1 := Nat.mod_eq_of_lt prime_p.one_lt

end Sys2Proof.Machine

/-! PROOFS. Edwards25519: the commands PADD, PDBL and PSMUL (rules R151 to R153), the constants of the curve (rules R142
to R144), and that sums, doubles and multiples stay on the curve (rules R140, R141, R145 to R148). -/

namespace Sys2Proof.Machine

/-! ### PADD, PDBL and PSMUL -/

section EdwardsCommands

variable {s : State}

theorem operandsOk_padd_iff : operandsOk .padd s = true ↔
    s.arg 0 + 128 ≤ s.cfg.memBytes ∧ s.arg 1 + 128 ≤ s.cfg.memBytes ∧ s.arg 2 + 128 ≤ s.cfg.memBytes := by
  simp [operandsOk_iff, operands]

theorem operandsOk_pdbl_iff : operandsOk .pdbl s = true ↔
    s.arg 0 + 128 ≤ s.cfg.memBytes ∧ s.arg 1 + 128 ≤ s.cfg.memBytes := by
  simp [operandsOk_iff, operands]

theorem operandsOk_psmul_iff : operandsOk .psmul s = true ↔
    s.arg 0 + 128 ≤ s.cfg.memBytes ∧ s.arg 1 + 32 ≤ s.cfg.memBytes ∧ s.arg 2 + 128 ≤ s.cfg.memBytes := by
  simp [operandsOk_iff, operands]

/-- Rule R146 does not use T. -/
theorem pdbl_withT (P : Point) (T : Nat) : pdbl { P with T := T } = pdbl P := rfl

theorem effectOf_pdbl_withT (s : State) (T : Nat) : effectOf .pdbl s =
    s.store (s.arg 0) (s.pointBytes (pdbl { s.readPoint (s.arg 1) with T := T })) := by
  rw [pdbl_withT]; rfl

end EdwardsCommands

/-- Settles O24: PADD's effect is one store, of the sum's coordinates. -/
theorem paddStoresTheSum : Obligations.PaddStoresTheSum := by
  refine ⟨fun s hwf h0 h1 h2 => ?_, fun s hout => ?_, rfl, rejectsReservedBits_of_formatZ (i := .padd) (by decide)⟩
  · exact storesExactly_of_store hwf rfl (operandsOk_padd_iff.mpr ⟨h0, h1, h2⟩) rfl (pointBytes_length s _)
  · exact raisesOnly_addrRange rfl (by rw [operandsOk_padd_iff]; omega)

/-- Settles O25: PDBL's effect is one store, of the coordinates of a double that T has no part in. -/
theorem pdblStoresTheDouble : Obligations.PdblStoresTheDouble := by
  refine ⟨fun s hwf h0 h1 => ?_, fun s hout => ?_, rfl, rejectsReservedBits_of_formatZ (i := .pdbl) (by decide)⟩
  · intro _ T
    exact storesExactly_of_store hwf rfl (operandsOk_pdbl_iff.mpr ⟨h0, h1⟩) (effectOf_pdbl_withT s T)
      (pointBytes_length s _)
  · exact raisesOnly_addrRange rfl (by rw [operandsOk_pdbl_iff]; omega)

/-- Settles O26: PSMUL's effect is one store, of the coordinates of the multiple by the scalar as it was read. -/
theorem psmulStoresTheMultiple : Obligations.PsmulStoresTheMultiple := by
  refine ⟨fun s hwf h0 h1 h2 => ?_, fun s hout => ?_, rfl, rejectsReservedBits_of_formatZ (i := .psmul) (by decide)⟩
  · exact storesExactly_of_store hwf rfl (operandsOk_psmul_iff.mpr ⟨h0, h1, h2⟩) rfl (pointBytes_length s _)
  · exact raisesOnly_addrRange rfl (by rw [operandsOk_psmul_iff]; omega)

/-! ### The constants of the curve (rules R142 to R144) -/

theorem curveD2_eq : curveD2 = 2 * curveD % p := by decide

theorem penc_basePoint : penc basePoint = (0x58 : Byte) :: List.replicate 31 0x66 := by decide +kernel

/-- L·B encodes as the neutral element (rule R144). -/
theorem penc_psmul_groupOrder : penc (psmul groupOrder basePoint) = (0x01 : Byte) :: List.replicate 31 0x00 := by
  decide +kernel

/-- Settles O52: each is an evaluation of the model's constants. -/
theorem curveConstants : Obligations.CurveConstants :=
  ⟨by decide, by decide, curveD2_eq, by decide, by decide, by decide, by decide, penc_basePoint, by decide,
    penc_psmul_groupOrder⟩

/-! ### The field operations in the ring of residues -/

@[simp] theorem fadd_zmod (a b : Nat) : (fadd a b : ZMod p) = a + b := by rw [fadd, ZMod.natCast_mod, Nat.cast_add]

@[simp] theorem fmul_zmod (a b : Nat) : (fmul a b : ZMod p) = a * b := by rw [fmul, ZMod.natCast_mod, Nat.cast_mul]

@[simp] theorem fsq_zmod (a : Nat) : (fsq a : ZMod p) = a * a := fmul_zmod a a

@[simp] theorem fsub_zmod (a b : Nat) : (fsub a b : ZMod p) = a - b := by
  have hb : b % p ≤ p := (Nat.mod_lt b p_pos).le
  rw [fsub, ZMod.natCast_mod, Nat.cast_add, Nat.cast_sub hb, ZMod.natCast_self, ZMod.natCast_mod]
  ring

@[simp] theorem curveD2_zmod : (curveD2 : ZMod p) = 2 * curveD := by
  rw [curveD2_eq, ZMod.natCast_mod, Nat.cast_mul, Nat.cast_ofNat]

/-- The relations of extended coordinates over any commutative ring (rules R140, R141). -/
structure ExtendedCoordinates {R : Type} [CommRing R] (d X Y Z T : R) : Prop where
  product : X * Y = Z * T
  curve   : Y * Y = X * X + Z * Z + d * T * T

theorem onCurve_iff {P : Point} : OnCurve P ↔ ExtendedCoordinates (curveD : ZMod p) P.X P.Y P.Z P.T := by
  rw [OnCurve, ← ZMod.natCast_eq_natCast_iff', ← ZMod.natCast_eq_natCast_iff']
  push_cast
  exact ⟨fun ⟨hproduct, hcurve⟩ => ⟨hproduct, hcurve⟩, fun h => ⟨h.product, h.curve⟩⟩

/-- Both formulas end in the tuple (E·F, G·H, F·G, E·H), which always meets X·Y = Z·T; the curve equation is what is
left to show. -/
theorem onCurve_of_factors {E F G H : Nat}
    (h : ((G * H) ^ 2 : ZMod p) = (E * F) ^ 2 + (F * G) ^ 2 + curveD * (E * H) ^ 2) :
    OnCurve ⟨fmul E F, fmul G H, fmul F G, fmul E H⟩ := by
  rw [onCurve_iff]
  simp only [fmul_zmod]
  constructor
  · ring
  · linear_combination h

/-! ### The identities behind the formulas

Over any commutative ring, for tuples that meet the relations of extended coordinates. -/

section Identities

variable {R : Type} [CommRing R] {d X₁ Y₁ Z₁ T₁ X₂ Y₂ Z₂ T₂ : R}

/-- The factors of rule R146 meet the curve equation. With t = X·Y = Z·T, H² - G² = 4t² and F² - G² = -4d·t². -/
theorem double_curve_equation (h : ExtendedCoordinates d X₁ Y₁ Z₁ T₁) {E F G H : R}
    (hE : E = X₁ * X₁ + Y₁ * Y₁ - (X₁ + Y₁) * (X₁ + Y₁)) (hF : F = Z₁ * Z₁ + Z₁ * Z₁ + G)
    (hG : G = X₁ * X₁ - Y₁ * Y₁) (hH : H = X₁ * X₁ + Y₁ * Y₁) :
    (G * H) ^ 2 = (E * F) ^ 2 + (F * G) ^ 2 + d * (E * H) ^ 2 := by
  have hEE : E ^ 2 = 4 * (X₁ * Y₁) ^ 2 := by rw [hE]; ring
  have hHH : H ^ 2 = G ^ 2 + 4 * (X₁ * Y₁) ^ 2 := by rw [hH, hG]; ring
  have hGC : G = -(Z₁ * Z₁ + d * T₁ * T₁) := by rw [hG, h.curve]; ring
  have hFF : F ^ 2 = G ^ 2 - 4 * d * (X₁ * Y₁) ^ 2 := by rw [hF, h.product, hGC]; ring
  calc (G * H) ^ 2 = G ^ 2 * H ^ 2 := by ring
    _ = E ^ 2 * F ^ 2 + F ^ 2 * G ^ 2 + d * (E ^ 2 * H ^ 2) := by rw [hEE, hFF, hHH]; ring
    _ = (E * F) ^ 2 + (F * G) ^ 2 + d * (E * H) ^ 2 := by ring

/-- (X² + Y²)² in Z and T. -/
theorem ExtendedCoordinates.sq_sum (h : ExtendedCoordinates d X₁ Y₁ Z₁ T₁) :
    (X₁ * X₁ + Y₁ * Y₁) ^ 2 = (Z₁ * Z₁ + d * T₁ * T₁) ^ 2 + 4 * (Z₁ * T₁) ^ 2 := by
  calc (X₁ * X₁ + Y₁ * Y₁) ^ 2 = (Y₁ * Y₁ - X₁ * X₁) ^ 2 + 4 * (X₁ * Y₁) ^ 2 := by ring
    _ = (Z₁ * Z₁ + d * T₁ * T₁) ^ 2 + 4 * (Z₁ * T₁) ^ 2 := by rw [h.curve, h.product]; ring

/-- The factors of rule R145 meet the curve equation. A·B, A² + B² and B² - A² are written in Z, T and the two
sums X² + Y², whose squares are known; what is left is an identity. -/
theorem sum_curve_equation (h₁ : ExtendedCoordinates d X₁ Y₁ Z₁ T₁) (h₂ : ExtendedCoordinates d X₂ Y₂ Z₂ T₂)
    {A B C D : R} (hA : A = (Y₁ - X₁) * (Y₂ - X₂)) (hB : B = (Y₁ + X₁) * (Y₂ + X₂))
    (hC : C = T₁ * (2 * d) * T₂) (hD : D = (Z₁ + Z₁) * Z₂) :
    ((D + C) * (B + A)) ^ 2 =
      ((B - A) * (D - C)) ^ 2 + ((D - C) * (D + C)) ^ 2 + d * ((B - A) * (B + A)) ^ 2 := by
  have hprod : A * B = (Z₁ * Z₁ + d * T₁ * T₁) * (Z₂ * Z₂ + d * T₂ * T₂) := by
    calc A * B = (Y₁ * Y₁ - X₁ * X₁) * (Y₂ * Y₂ - X₂ * X₂) := by rw [hA, hB]; ring
      _ = (Z₁ * Z₁ + d * T₁ * T₁) * (Z₂ * Z₂ + d * T₂ * T₂) := by rw [h₁.curve, h₂.curve]; ring
  have hsum : B ^ 2 + A ^ 2 =
      2 * ((X₁ * X₁ + Y₁ * Y₁) * (X₂ * X₂ + Y₂ * Y₂) + 4 * (Z₁ * T₁) * (Z₂ * T₂)) := by
    rw [← h₁.product, ← h₂.product, hA, hB]; ring
  have hdiff : B ^ 2 - A ^ 2 = 4 * (Z₁ * T₁ * (X₂ * X₂ + Y₂ * Y₂) + Z₂ * T₂ * (X₁ * X₁ + Y₁ * Y₁)) := by
    rw [← h₁.product, ← h₂.product, hA, hB]; ring
  have hrest : 4 * (D ^ 2 + C ^ 2) * (A * B) + 4 * (D * C) * (B ^ 2 + A ^ 2) =
      (D ^ 2 - C ^ 2) ^ 2 + d * (B ^ 2 - A ^ 2) ^ 2 := by
    rw [hprod, hsum, hdiff, hC, hD]
    linear_combination -16 * d * (Z₂ * T₂) ^ 2 * h₁.sq_sum - 16 * d * (Z₁ * T₁) ^ 2 * h₂.sq_sum
  linear_combination hrest

end Identities

/-! ### Sums, doubles and multiples -/

/-- One round of rule R148. The recursion is unfolded by name because the kernel, given the bare `rfl`, starts to
evaluate `padd` and with it the 255-bit modulus. -/
theorem psmulFrom_succ (s : Nat) (P : Point) (k : Nat) (Q : Point) :
    psmulFrom s P (k + 1) Q = psmulFrom s P k (padd (pdbl Q) (psel (s.testBit k) P)) := by
  delta psmulFrom
  rfl

section OnTheCurve

variable {P Q : Point}

theorem onCurve_padd (hP : OnCurve P) (hQ : OnCurve Q) : OnCurve (padd P Q) := by
  refine onCurve_of_factors ?_
  simp only [fadd_zmod, fsub_zmod, fmul_zmod, curveD2_zmod]
  exact sum_curve_equation (onCurve_iff.mp hP) (onCurve_iff.mp hQ) rfl rfl rfl rfl

theorem onCurve_pdbl (hP : OnCurve P) : OnCurve (pdbl P) := by
  refine onCurve_of_factors ?_
  simp only [fadd_zmod, fsub_zmod, fsq_zmod]
  exact double_curve_equation (onCurve_iff.mp hP) rfl rfl rfl rfl

theorem onCurve_neutral : OnCurve neutral := ⟨by decide, by decide⟩

/-- What rule R148 selects is the point itself or the neutral element. -/
theorem onCurve_psel (b : Bool) (hP : OnCurve P) : OnCurve (psel b P) := by
  cases b with
  | false => exact onCurve_neutral
  | true => exact hP

/-- Every round of rule R148 keeps the accumulator on the curve. -/
theorem onCurve_psmulFrom (s k : Nat) (hP : OnCurve P) (hQ : OnCurve Q) : OnCurve (psmulFrom s P k Q) := by
  induction k generalizing Q with
  | zero => exact hQ
  | succ k ih =>
    rw [psmulFrom_succ]
    exact ih (onCurve_padd (onCurve_pdbl hQ) (onCurve_psel _ hP))

end OnTheCurve

/-- Settles O53: the identities for the sum and the double, and the loop of rule R148 from the neutral element. -/
theorem edwardsResultsStayOnTheCurve : Obligations.EdwardsResultsStayOnTheCurve :=
  fun _ _ hP hQ => ⟨onCurve_padd hP hQ, onCurve_pdbl hP, fun s => onCurve_psmulFrom s 256 hP onCurve_neutral⟩

end Sys2Proof.Machine

/-! PROOFS. SHA-2: the commands SHA256C and SHA512C (rules R166, R169), the closed forms of the constants (rules R161,
R162, R165, R167), and the padding of SHA-512 (rule R170). -/

namespace Sys2Proof.Machine

/-! ### Big-endian words in MEM (rule R66)

Both commands are one text over the word width w (rule R168), so each lemma is stated for every w. -/

/-- The `k` bytes at offset `i` of a region read are a read at that offset. -/
theorem slice_read (s : State) (a : Nat) {n i k : Nat} (h : i + k ≤ n) :
    slice (s.read a n) i (i + k) = s.read (a + i) k := by
  refine List.ext_getElem (by simp [slice]; omega) fun j _ _ => ?_
  simp [slice, State.read, Nat.add_assoc]

/-- Word i of `n` big-endian words read at `a` is read at `a` and i words on. -/
theorem wordsBE_read (w n : Nat) (s : State) (a : Nat) : wordsBE w n (s.read a (w / 8 * n)) =
    (List.range n).map fun i => .ofNat w (BE (s.read (a + w / 8 * i) (w / 8))) := by
  refine List.map_congr_left fun i hi => ?_
  have hlast : w / 8 * i + w / 8 ≤ w / 8 * n := Nat.mul_le_mul_left (w / 8) (List.mem_range.mp hi)
  rw [slice_read s a hlast]

theorem bytesBE_words {w : Nat} (H : HashState w) : bytesBE w H.words =
    toBE H.a.toNat (w / 8) ++ toBE H.b.toNat (w / 8) ++ toBE H.c.toNat (w / 8) ++ toBE H.d.toNat (w / 8) ++
      toBE H.e.toNat (w / 8) ++ toBE H.f.toNat (w / 8) ++ toBE H.g.toNat (w / 8) ++ toBE H.h.toNat (w / 8) := by
  simp [bytesBE, HashState.words]

/-! ### SHA256C and SHA512C -/

/-- The reserved field of a command of format F is bits 31:9 (rules R92, R96). -/
theorem rejectsReservedBits_of_formatF {c : Bool → Instr} (hc : c ∈ formatF) :
    RejectsReservedBits (opcodeOf (c false)) 9 :=
  fun _ hop hreserved => (decode_of_formatF hc hop).trans (if_neg hreserved)

section HashCommands

variable {iv : Bool} {s : State}

theorem operandsOk_sha256c_iff : operandsOk (.sha256c iv) s = true ↔
    s.arg 0 + 32 ≤ s.cfg.memBytes ∧ s.arg 1 + 64 ≤ s.cfg.memBytes := by
  simp [operandsOk_iff, operands]

theorem operandsOk_sha512c_iff : operandsOk (.sha512c iv) s = true ↔
    s.arg 0 + 64 ≤ s.cfg.memBytes ∧ s.arg 1 + 128 ≤ s.cfg.memBytes := by
  simp [operandsOk_iff, operands]

end HashCommands

/-- Settles O27: SHA256C's effect is one store, of the words of the compression. -/
theorem sha256cStoresTheNewState : Obligations.Sha256cStoresTheNewState := by
  refine ⟨fun iv s hwf h0 h1 => ?_, fun iv s hout => ?_, rfl, rfl,
    rejectsReservedBits_of_formatF (c := .sha256c) (by decide)⟩
  · intro word H R
    refine storesExactly_of_store hwf rfl (operandsOk_sha256c_iff.mpr ⟨h0, h1⟩) ?_ (by simp)
    rw [effectOf, sha256cEffect, wordsBE_read 32 8, wordsBE_read 32 16, bytesBE_words]
    rfl
  · exact raisesOnly_addrRange rfl (by rw [operandsOk_sha256c_iff]; omega)

/-- Settles O28: SHA512C's effect is one store, of the words of the compression. -/
theorem sha512cStoresTheNewState : Obligations.Sha512cStoresTheNewState := by
  refine ⟨fun iv s hwf h0 h1 => ?_, fun iv s hout => ?_, rfl, rfl,
    rejectsReservedBits_of_formatF (c := .sha512c) (by decide)⟩
  · intro word H R
    refine storesExactly_of_store hwf rfl (operandsOk_sha512c_iff.mpr ⟨h0, h1⟩) ?_ (by simp)
    rw [effectOf, sha512cEffect, wordsBE_read 64 8, wordsBE_read 64 16, bytesBE_words]
    rfl
  · exact raisesOnly_addrRange rfl (by rw [operandsOk_sha512c_iff]; omega)

/-! ### The padding of SHA-512 (rule R170) -/

/-- The zero bytes bring the length to 112 mod 128. -/
theorem sha512ZeroBytes_spec (n : Nat) : (n + 1 + sha512ZeroBytes n) % 128 = 112 := by
  rw [sha512ZeroBytes]; omega

/-- No smaller number of zero bytes does. -/
theorem sha512ZeroBytes_least {n j : Nat} (h : j < sha512ZeroBytes n) : (n + 1 + j) % 128 ≠ 112 := by
  rw [sha512ZeroBytes] at h; omega

theorem sha512Padded_length (msg : List Byte) :
    (sha512Padded msg).length = msg.length + 1 + sha512ZeroBytes msg.length + 16 := by
  simp [sha512Padded]
  omega

/-- Settles O57: `sha512ZeroBytes` is the least k, and the 16 bytes of the length fill the last block. -/
theorem sha512Padding : Obligations.Sha512Padding := by
  intro msg
  have hspec := sha512ZeroBytes_spec msg.length
  refine ⟨sha512ZeroBytes msg.length, hspec, fun j hj => sha512ZeroBytes_least hj, rfl, ?_⟩
  rw [sha512Padded_length]
  omega

/-! ### The constants as roots of primes (rules R161, R162, R165, R167) -/

/-- `c` is the first `w` bits of the fractional part of the k-th root of `n`: the last `w` bits of the floor of the root
scaled by 2^w. -/
def RootFraction (k n w c : Nat) : Prop :=
  ∃ r, r ^ k ≤ n * 2 ^ (k * w) ∧ n * 2 ^ (k * w) < (r + 1) ^ k ∧ r % 2 ^ w = c

/-- Rounded down after `w` fraction bits, the k-th root of `n` is an integer part below 8 with the fraction bits `c`.
The roots in question are below 8: the largest is the cube root of 409. -/
def hasRootFraction (k n w : Nat) (c : BitVec w) : Bool :=
  decide (∃ m : Nat, m < 8 ∧ (m * 2 ^ w + c.toNat) ^ k ≤ n * 2 ^ (k * w) ∧
    n * 2 ^ (k * w) < (m * 2 ^ w + c.toNat + 1) ^ k)

theorem rootFraction_of_hasRootFraction {k n w : Nat} {c : BitVec w} (h : hasRootFraction k n w c = true) :
    RootFraction k n w c.toNat := by
  obtain ⟨m, -, low, high⟩ := of_decide_eq_true h
  exact ⟨m * 2 ^ w + c.toNat, low, high, by rw [Nat.mul_add_mod_self_right, Nat.mod_eq_of_lt c.isLt]⟩

/-- The first 80 primes. -/
def firstPrimes : List Nat :=
  [2, 3, 5, 7, 11, 13, 17, 19, 23, 29, 31, 37, 41, 43, 47, 53, 59, 61, 67, 71,
   73, 79, 83, 89, 97, 101, 103, 107, 109, 113, 127, 131, 137, 139, 149, 151, 157, 163, 167, 173,
   179, 181, 191, 193, 197, 199, 211, 223, 227, 229, 233, 239, 241, 251, 257, 263, 269, 271, 277, 281,
   283, 293, 307, 311, 313, 317, 331, 337, 347, 349, 353, 359, 367, 373, 379, 383, 389, 397, 401, 409]

/-- `n` is at least 2, and no number from 2 to 20 divides it, but for those whose square is above `n`. -/
def passesTrialDivision (n : Nat) : Bool :=
  decide (2 ≤ n ∧ ∀ m : Nat, m < 21 → 2 ≤ m → m * m ≤ n → ¬ m ∣ n)

/-- Trial division by the numbers below 21 tells the primes below 21^2 = 441. -/
theorem prime_iff_passesTrialDivision {n : Nat} (hn : n < 441) : n.Prime ↔ passesTrialDivision n = true := by
  simp only [passesTrialDivision, decide_eq_true_eq, Nat.prime_def_le_sqrt, Nat.le_sqrt]
  refine and_congr_right fun _ => ⟨fun h m _ h2 hsq => h m h2 hsq, fun h m h2 hsq => h m ?_ h2 hsq⟩
  nlinarith

theorem filter_prime_range_410 : ((List.range 410).filter fun n => Nat.Prime n) = firstPrimes := by
  have htest : ∀ n ∈ List.range 410, decide n.Prime = passesTrialDivision n := by
    intro n hn
    have hlt : n < 441 := (List.mem_range.mp hn).trans (by decide)
    rw [Bool.eq_iff_iff, decide_eq_true_iff, prime_iff_passesTrialDivision hlt]
  rw [List.filter_congr htest]
  decide +kernel

theorem K256_hasRootFraction :
    ∀ t < 64, hasRootFraction 3 (firstPrimes.getD t 0) 32 (K256.getD t 0) = true := by decide +kernel

theorem K512_hasRootFraction :
    ∀ t < 80, hasRootFraction 3 (firstPrimes.getD t 0) 64 (K512.getD t 0) = true := by decide +kernel

theorem IV256_hasRootFraction :
    ∀ t < 8, hasRootFraction 2 (firstPrimes.getD t 0) 32 (IV256.words.getD t 0) = true := by decide

theorem IV512_hasRootFraction :
    ∀ t < 8, hasRootFraction 2 (firstPrimes.getD t 0) 64 (IV512.words.getD t 0) = true := by decide

/-- Settles O56: the primes by trial division, and for each constant the root's integer part. -/
theorem hashConstantsAreRoots : Obligations.HashConstantsAreRoots := by
  unfold Obligations.HashConstantsAreRoots
  rw [filter_prime_range_410]
  exact ⟨by decide, fun t ht => rootFraction_of_hasRootFraction (K256_hasRootFraction t ht),
    by decide, fun t ht => rootFraction_of_hasRootFraction (K512_hasRootFraction t ht),
    fun t ht => rootFraction_of_hasRootFraction (IV256_hasRootFraction t ht),
    fun t ht => rootFraction_of_hasRootFraction (IV512_hasRootFraction t ht)⟩

end Sys2Proof.Machine

/-! PROOFS. ChaCha20: the quarter-round on a state (rules R180, R183), the commands CCQR and CCBLK (rules R183, R185),
and the block made by CCQR commands (rule R184). -/

namespace Sys2Proof.Machine

/-! ### Little-endian words in MEM (rule R67) -/

/-- Word i of `n` little-endian words read at `a` is read at `a` and i words on. -/
theorem wordsLE_read (n : Nat) (s : State) (a : Nat) : wordsLE n (s.read a (4 * n)) =
    (List.range n).map fun i => .ofNat 32 (LE (s.read (a + 4 * i) 4)) := by
  refine List.map_congr_left fun i hi => ?_
  have hlast : 4 * i + 4 ≤ 4 * n := Nat.mul_le_mul_left 4 (List.mem_range.mp hi)
  rw [slice_read s a hlast]

theorem getD_wordsLE_read {n k : Nat} (h : k < n) (s : State) (a : Nat) :
    (wordsLE n (s.read a (4 * n))).getD k 0 = .ofNat 32 (LE (s.read (a + 4 * k) 4)) := by
  simp [wordsLE_read, h]

theorem wordsLE_bytesLE_of_length {n : Nat} {ws : List Word} (h : ws.length = n) : wordsLE n (bytesLE ws) = ws :=
  h ▸ wordsLE_bytesLE ws

/-! ### The quarter-round on a state (rule R180) -/

section QuarterRound

variable {st : List Word} {i j k l : Nat}

/-- The four words named become the quarter-round of the old ones: a word set is not set again, the indices being
distinct. -/
theorem getD_QR_named (hdistinct : [i, j, k, l].Nodup) (hi : i < st.length) (hj : j < st.length)
    (hk : k < st.length) (hl : l < st.length) :
    ((QR st i j k l).getD i 0, (QR st i j k l).getD j 0, (QR st i j k l).getD k 0, (QR st i j k l).getD l 0) =
      qr (st.getD i 0) (st.getD j 0) (st.getD k 0) (st.getD l 0) := by
  simp only [List.nodup_cons, List.mem_cons, List.not_mem_nil, or_false, not_or] at hdistinct
  obtain ⟨⟨hij, hik, hil⟩, ⟨hjk, hjl⟩, hkl, -⟩ := hdistinct
  simp [QR, *, Ne.symm]

/-- The other words stay. -/
theorem getD_QR_of_ne {m : Nat} (hi : m ≠ i) (hj : m ≠ j) (hk : m ≠ k) (hl : m ≠ l) :
    (QR st i j k l).getD m 0 = st.getD m 0 := by
  simp [QR, hi.symm, hj.symm, hk.symm, hl.symm]

end QuarterRound

/-! ### CCQR and CCBLK -/

section ChachaCommands

variable {qa qb qc qd : BitVec 4} {s : State}

theorem operandsOk_ccqr_iff : operandsOk (.ccqr qa qb qc qd) s = true ↔ s.arg 0 + 64 ≤ s.cfg.memBytes := by
  simp [operandsOk_iff, operands]

theorem operandsOk_ccblk_iff : operandsOk .ccblk s = true ↔
    s.arg 0 + 64 ≤ s.cfg.memBytes ∧ s.arg 1 + 32 ≤ s.cfg.memBytes ∧ s.arg 2 + 12 ≤ s.cfg.memBytes := by
  simp [operandsOk_iff, operands]

/-- CCQR stores the quarter-round of the state at x[0], all sixteen words of it. -/
theorem storesExactly_ccqr (qa qb qc qd : BitVec 4) (hwf : s.mem.wf) (hin : s.arg 0 + 64 ≤ s.cfg.memBytes) :
    StoresExactly (.ccqr qa qb qc qd) s (s.arg 0) 64
      (bytesLE (QR (wordsLE 16 (s.read (s.arg 0) 64)) qa.toNat qb.toNat qc.toNat qd.toNat)) :=
  storesExactly_of_store hwf rfl (operandsOk_ccqr_iff.mpr hin) rfl (by simp)

/-- The bytes that CCQR stores are read back as the sixteen words of the quarter-round (rule R67). -/
theorem wordsLE_read_QR {st : List Word} {t : State} {a i j k l : Nat} (hlen : st.length = 16)
    (hread : t.mem.read a 64 = bytesLE (QR st i j k l)) : wordsLE 16 (t.read a 64) = QR st i j k l := by
  rw [State.read, hread, wordsLE_bytesLE_of_length (by simp [hlen])]

/-- A word of format Q with a reserved bit or equal indices is no command (rules R96, R97). -/
theorem exists_decode_error_of_formatQ {w : Word} (hop : bitsOf w 7 0 = 0x30)
    (hillegal : bitsOf w 31 24 ≠ 0 ∨ ¬ (quarterRoundOf w).wf = true) : ∃ e, decode w = .error e := by
  cases hd : decode w with
  | error e => exact ⟨e, rfl⟩
  | ok i =>
    rw [decode_of_formatQ hop] at hd
    obtain ⟨hreserved, hlegal, -⟩ := decodeQ_eq_ok.mp hd
    exact absurd hillegal (by simp [hreserved, hlegal])

end ChachaCommands

/-- Settles O29: CCQR's effect is one store of the state's quarter-round, read back word by word. -/
theorem ccqrRewritesFourWords : Obligations.CcqrRewritesFourWords := by
  refine ⟨fun qa qb qc qd s hwf hlegal hin => ?_, fun qa qb qc qd s hout => ?_, fun w hop hillegal => ?_⟩
  · intro word
    obtain ⟨t, hexec, hok, hx, hread, hframe⟩ := storesExactly_ccqr qa qb qc qd hwf hin
    have hword : ∀ (u : State) {k : Nat}, k < 16 → word u k = (wordsLE 16 (u.read (s.arg 0) 64)).getD k 0 :=
      fun u k hk => (getD_wordsLE_read hk u _).symm
    have hstate := wordsLE_read_QR (wordsLE_length _ _) hread
    refine ⟨t, hexec, hok, hx, ?_, fun k hk ha hb hc hd => ?_, hframe⟩
    · simp only [hword _ qa.isLt, hword _ qb.isLt, hword _ qc.isLt, hword _ qd.isLt, hstate]
      exact getD_QR_named (wf_ccqr_iff.mp hlegal) (by simp [qa.isLt]) (by simp [qb.isLt]) (by simp [qc.isLt])
        (by simp [qd.isLt])
    · rw [hword t hk, hword s hk, hstate, getD_QR_of_ne ha hb hc hd]
  · exact raisesOnly_addrRange rfl (by rw [operandsOk_ccqr_iff]; omega)
  · exact exists_decode_error_of_formatQ hop (by rwa [wf_quarterRoundOf_iff])

/-- Settles O30: CCBLK's effect is one store, of the block of the words as they stand in MEM and of x[3]. -/
theorem ccblkStoresTheBlock : Obligations.CcblkStoresTheBlock := by
  refine ⟨fun s hwf h0 h1 h2 => ?_, fun s hout => ?_, rfl, rejectsReservedBits_of_formatZ (i := .ccblk) (by decide)⟩
  · intro word
    refine storesExactly_of_store hwf rfl (operandsOk_ccblk_iff.mpr ⟨h0, h1, h2⟩) ?_
      (chacha20block_length (by simp) (by simp) _)
    rw [effectOf, ccblkEffect, wordsLE_read 8, wordsLE_read 3]
  · exact raisesOnly_addrRange rfl (by rw [operandsOk_ccblk_iff]; omega)

/-! ### The block by CCQR commands (rules R183, R184) -/

/-- Every command keeps the canonical form of MEM. -/
theorem exec_wf {i : Instr} {s t : State} (h : exec i s = .next t) (hwf : s.mem.wf) : t.mem.wf := by
  obtain ⟨-, rfl⟩ | ⟨-, -, rfl⟩ | ⟨-, -, hran⟩ := exec_cases h
  · exact hwf
  · exact hwf
  · cases hran with
    | nop => exact hwf
    | zeroize => exact Memory.wf_nil
    | wrote => exact Memory.write_wf hwf _ _

theorem runCommands_append (is js : List Instr) (s : State) :
    runCommands (is ++ js) s = runCommands js (runCommands is s) := by
  induction is generalizing s with
  | nil => rfl
  | cons i is ih => exact ih _

/-- x[0] is the address `a`, inside MEM, of a ChaCha20 state of the words `ws`. -/
structure HoldsChachaState (a : Nat) (ws : List Word) (s : State) : Prop where
  wf    : s.mem.wf
  addr  : s.arg 0 = a
  inMem : a + 64 ≤ s.cfg.memBytes
  words : wordsLE 16 (s.read a 64) = ws

namespace HoldsChachaState

variable {a : Nat} {ws : List Word} {s : State}

/-- One CCQR command is one quarter-round of the state. -/
theorem ccqr (h : HoldsChachaState a ws s) (qa qb qc qd : BitVec 4) :
    HoldsChachaState a (QR ws qa.toNat qb.toNat qc.toNat qd.toNat) (stateAfter s (exec (.ccqr qa qb qc qd) s)) := by
  obtain ⟨hwf, rfl, hin, rfl⟩ := h
  obtain ⟨t, hexec, hok, hx, hread, -⟩ := storesExactly_ccqr qa qb qc qd hwf hin
  rw [hexec, stateAfter]
  exact ⟨exec_wf hexec hwf, by rw [State.arg, hx, State.arg], hok.around.cfg ▸ hin,
    wordsLE_read_QR (wordsLE_length _ _) hread⟩

/-- The eight CCQR commands of a double-round are a double-round of the state. -/
theorem doubleRound (h : HoldsChachaState a ws s) :
    HoldsChachaState a (doubleRound ws) (runCommands doubleRoundCommands s) :=
  have columns := (((h.ccqr 0 4 8 12).ccqr 1 5 9 13).ccqr 2 6 10 14).ccqr 3 7 11 15
  (((columns.ccqr 0 5 10 15).ccqr 1 6 11 12).ccqr 2 7 8 13).ccqr 3 4 9 14

theorem doubleRounds (h : HoldsChachaState a ws s) (n : Nat) :
    HoldsChachaState a (doubleRounds n ws) (runCommands (roundCommands n) s) := by
  induction n generalizing ws s with
  | zero => exact h
  | succ n ih =>
    rw [roundCommands, runCommands_append]
    exact ih h.doubleRound

end HoldsChachaState

theorem chachaInit_length {k n : List Word} (hk : k.length = 8) (hn : n.length = 3) (ctr : Word) :
    (chachaInit k ctr n).length = 16 := by
  simp [chachaInit, chachaConstants, hk, hn]

/-- Settles O59: the commands keep that the sixteen words are the double-rounds done so far of the initial state. -/
theorem quarterRoundCommandsMakeTheBlock : Obligations.QuarterRoundCommandsMakeTheBlock := by
  intro s k n ctr hk hn hwf hin hread t
  have hinit : HoldsChachaState (s.arg 0) (chachaInit k ctr n) s :=
    ⟨hwf, rfl, hin, hread ▸ wordsLE_bytesLE_of_length (chachaInit_length hk hn ctr)⟩
  rw [(hinit.doubleRounds 10).words, chacha20block]

end Sys2Proof.Machine

/-! PROOFS. Poly1305: the commands P13CLAMP, P13ACC and P13FIN (rules R197 to R199), and the tag's independence of the
accumulator's representative (rules R8, R199). -/

namespace Sys2Proof.Machine

/-! ### What a command stores and raises, continued -/

section Command

variable {i : Instr} {s t : State}

/-- A value out of its range ends a command with ARG_RANGE, whatever its regions (rules R253, R256). -/
theorem raisesOnly_argRange (hv : ¬ valueOk i s = true) : RaisesOnly i s 0x02 :=
  ⟨_, (exec_eq i s).trans (runCommand_argRange (Bool.eq_false_of_not_eq_true hv)),
    completesErr_complete (err := .argRange) rfl, rfl, rfl⟩

/-- What a command stores is read in every state that it ends in. -/
theorem StoresExactly.read_eq {addr n : Nat} {bs : List Byte} (h : StoresExactly i s addr n bs)
    (hexec : exec i s = .next t) : t.read addr n = bs := by
  obtain ⟨t', hexec', -, -, hread, -⟩ := h
  cases hexec.symm.trans hexec'
  exact hread

end Command

/-! ### P13CLAMP, P13ACC and P13FIN -/

section PolyCommands

variable {s : State}

theorem operandsOk_p13clamp_iff : operandsOk .p13clamp s = true ↔
    s.arg 0 + 16 ≤ s.cfg.memBytes ∧ s.arg 1 + 16 ≤ s.cfg.memBytes := by
  simp [operandsOk_iff, operands]

theorem operandsOk_p13acc_iff : operandsOk .p13acc s = true ↔
    s.arg 0 + 17 ≤ s.cfg.memBytes ∧ s.arg 1 + 16 ≤ s.cfg.memBytes ∧ s.arg 2 + s.arg 3 ≤ s.cfg.memBytes := by
  simp [operandsOk_iff, operands]

theorem operandsOk_p13fin_iff : operandsOk .p13fin s = true ↔
    s.arg 0 + 16 ≤ s.cfg.memBytes ∧ s.arg 1 + 17 ≤ s.cfg.memBytes ∧ s.arg 2 + 16 ≤ s.cfg.memBytes := by
  simp [operandsOk_iff, operands]

/-- The value check of P13ACC is on the block's length (rules R198, R253). -/
theorem valueOk_p13acc_iff : valueOk .p13acc s = true ↔ 1 ≤ s.arg 3 ∧ s.arg 3 ≤ 16 := by simp [valueOk]

/-- The block that P13ACC adds, with the terminating 1 above its bytes (rule R198). -/
theorem polyBlock_read (s : State) (a n : Nat) : polyBlock (s.read a n) = LE (s.read a n) + 2 ^ (8 * n) := by
  rw [polyBlock, read_length]

/-- Inside its ranges P13FIN stores the reduced accumulator plus s, cut to 128 bits (rule R199). -/
theorem storesExactly_p13fin (hwf : s.mem.wf) (h0 : s.arg 0 + 16 ≤ s.cfg.memBytes)
    (h1 : s.arg 1 + 17 ≤ s.cfg.memBytes) (h2 : s.arg 2 + 16 ≤ s.cfg.memBytes) :
    StoresExactly .p13fin s (s.arg 0) 16
      (toLE ((LE (s.read (s.arg 1) 17) % q + LE (s.read (s.arg 2) 16)) % 2 ^ 128) 16) :=
  storesExactly_of_store hwf rfl (operandsOk_p13fin_iff.mpr ⟨h0, h1, h2⟩) rfl (toLE_length _ _)

end PolyCommands

/-- Settles O31: P13CLAMP's effect is one store, of the input under the mask. -/
theorem p13clampMasksTheKey : Obligations.P13clampMasksTheKey := by
  refine ⟨fun s hwf h0 h1 => ?_, fun s hout => ?_, rfl, rejectsReservedBits_of_formatZ (i := .p13clamp) (by decide)⟩
  · exact storesExactly_of_store hwf rfl (operandsOk_p13clamp_iff.mpr ⟨h0, h1⟩) rfl (toLE_length _ _)
  · exact raisesOnly_addrRange rfl (by rw [operandsOk_p13clamp_iff]; omega)

/-- Settles O32: P13ACC's effect is one store, of the step's representative; the check of the length comes before the
check of the regions. -/
theorem p13accAccumulates : Obligations.P13accAccumulates := by
  refine ⟨fun s hwf hpos hle h0 h1 h2 => ?_, fun s hlen => ?_, fun s hpos hle hout => ?_, rfl,
    rejectsReservedBits_of_formatZ (i := .p13acc) (by decide)⟩
  · refine storesExactly_of_store hwf (valueOk_p13acc_iff.mpr ⟨hpos, hle⟩) (operandsOk_p13acc_iff.mpr ⟨h0, h1, h2⟩) ?_
      (toLE_length _ _)
    rw [← polyBlock_read]
    rfl
  · exact raisesOnly_argRange (by rw [valueOk_p13acc_iff]; omega)
  · exact raisesOnly_addrRange (valueOk_p13acc_iff.mpr ⟨hpos, hle⟩) (by rw [operandsOk_p13acc_iff]; omega)

/-- Settles O33: P13FIN's effect is one store, of the tag. -/
theorem p13finStoresTheTag : Obligations.P13finStoresTheTag := by
  refine ⟨fun s hwf h0 h1 h2 => storesExactly_p13fin hwf h0 h1 h2, fun s hout => ?_, rfl,
    rejectsReservedBits_of_formatZ (i := .p13fin) (by decide)⟩
  exact raisesOnly_addrRange rfl (by rw [operandsOk_p13fin_iff]; omega)

/-- Settles O55: the tag is a function of the accumulator's residue and of s, which the two states share. -/
theorem tagIgnoresTheRepresentative : Obligations.TagIgnoresTheRepresentative := by
  intro s u s' u' hs hu hx hmem h0 h1 h2 hacc hkey hexec hexec'
  have harg : ∀ k, u.arg k = s.arg k := fun k => by rw [State.arg, State.arg, hx]
  have htag := (storesExactly_p13fin hs h0 h1 h2).read_eq hexec
  have htag' := (storesExactly_p13fin (s := u) hu (by rwa [harg, ← hmem]) (by rwa [harg, ← hmem])
    (by rwa [harg, ← hmem])).read_eq hexec'
  rw [harg, harg, harg, ← hacc, ← hkey] at htag'
  exact htag.trans htag'.symm

end Sys2Proof.Machine

/-! PROOFS. X25519: the clamped scalar (rule R213), the commands MLSTEP and X25519 (rules R211, R215), the ladder run by
MLSTEP commands (rule R216), and the peer keys of low order (rule R215). -/

namespace Sys2Proof.Machine

/-! ### The clamped scalar (rule R213) -/

/-- Bits 3 to 253 are kept and bit 254 is set; every other bit is clear. -/
theorem testBit_clamp (s k : Nat) :
    (clamp s).testBit k = (s.testBit k && decide (3 ≤ k ∧ k < 254) || decide (k = 254)) := by
  have hmask : (2 ^ 254 - 8 : Nat) = (2 ^ 251 - 1) <<< 3 := by decide
  have hrange : (3 ≤ k ∧ k - 3 < 251) ↔ 3 ≤ k ∧ k < 254 := by omega
  rw [clamp, hmask, Nat.testBit_or, Nat.testBit_and, Nat.testBit_shiftLeft, Nat.testBit_two_pow_sub_one,
    Nat.testBit_two_pow, ← Bool.decide_and, decide_eq_decide.mpr hrange, decide_eq_decide.mpr eq_comm]

theorem two_pow_254_le_clamp (s : Nat) : 2 ^ 254 ≤ clamp s := Nat.right_le_or

theorem clamp_lt (s : Nat) : clamp s < 2 ^ 255 := by
  have hkept : s &&& (2 ^ 254 - 8) < 2 ^ 255 := Nat.and_lt_two_pow s (by decide)
  exact Nat.or_lt_two_pow hkept (by decide)

theorem clamp_mod_eight (s : Nat) : clamp s % 8 = 0 := by
  refine Nat.eq_of_testBit_eq fun k => ?_
  rw [show (8 : Nat) = 2 ^ 3 from rfl, Nat.testBit_mod_two_pow, testBit_clamp, Nat.zero_testBit]
  by_cases hk : k < 3
  · simp [hk, show ¬ 3 ≤ k by omega, show k ≠ 254 by omega]
  · simp [hk]

/-- Bit j of byte i of `toLE(v, n)` is bit 8i + j of v (rule R13). -/
theorem getLsbD_getElem_toLE (v n i : Nat) (h : i < (toLE v n).length) {j : Nat} (hj : j < 8) :
    (toLE v n)[i].getLsbD j = v.testBit (8 * i + j) := by
  rw [← BitVec.testBit_toNat, toNat_getElem_toLE, show 256 = 2 ^ 8 from rfl, ← pow_mul, Nat.testBit_mod_two_pow,
    Nat.testBit_div_two_pow, decide_eq_true hj, Bool.true_and, Nat.add_comm]

/-- Bit 8i + j of the integer that a byte string holds is bit j of its byte i (rule R13). -/
theorem testBit_LE {bs : List Byte} {i j : Nat} (h : i < bs.length) (hj : j < 8) :
    (LE bs).testBit (8 * i + j) = bs[i].getLsbD j := by
  rw [← getLsbD_getElem_toLE (LE bs) bs.length i (by simpa using h) hj]
  simp only [toLE_LE]

/-- The three byte masks of rule R213, bit by bit. -/
theorem getLsbD_clampMasks : ∀ j < 8, (0xF8#8).getLsbD j = decide (3 ≤ j) ∧
    (0x7F#8).getLsbD j = decide (j < 7) ∧ (0x40#8).getLsbD j = decide (j = 6) := by decide

/-- Rule R213 on the 32 bytes, bit by bit: only the first and the last hold a bit that is not kept. -/
theorem toLE_clamp {bs : List Byte} (hlen : bs.length = 32) : toLE (clamp (LE bs)) 32 =
    (bs.set 0 (bs.getD 0 0 &&& 0xF8)).set 31 ((bs.getD 31 0 &&& 0x7F) ||| 0x40) := by
  refine List.ext_getElem (by simp [hlen]) fun i hi _ => BitVec.eq_of_getLsbD_eq fun j hj => ?_
  obtain ⟨hlow, hhigh, hset⟩ := getLsbD_clampMasks j hj
  have hi' : i < bs.length := by simpa [hlen] using hi
  rw [getLsbD_getElem_toLE _ _ _ _ hj, testBit_clamp, testBit_LE hi' hj, List.getElem_set, List.getElem_set]
  by_cases h31 : i = 31
  · subst h31
    have hlast : 8 * 31 + j = 254 ↔ j = 6 := by omega
    by_cases h6 : j = 6
    · simp [h6]
    · have hkept : (3 ≤ 8 * 31 + j ∧ 8 * 31 + j < 254) ↔ j < 7 := by omega
      simp [hi', hhigh, hset, hlast, hkept, h6]
  · have hlast : 8 * i + j ≠ 254 := by omega
    by_cases h0 : i = 0
    · subst h0
      have hkept : (3 ≤ 8 * 0 + j ∧ 8 * 0 + j < 254) ↔ 3 ≤ j := by omega
      simp only [hkept, hlast]
      simp [hi', hlow]
    · have hkept : 3 ≤ 8 * i + j ∧ 8 * i + j < 254 := by omega
      simp [Ne.symm h31, Ne.symm h0, hkept, hlast]

/-- Settles O54: the integer bit by bit, and its bytes. -/
theorem scalarClamp : Obligations.ScalarClamp := by
  refine ⟨fun s _ => ⟨two_pow_254_le_clamp s, clamp_lt s, clamp_mod_eight s, fun k h3 h253 => ?_⟩,
    fun _ hlen => toLE_clamp hlen⟩
  simp [testBit_clamp, h3, show k < 254 by omega, show k ≠ 254 by omega]

/-! ### MLSTEP and X25519 -/

section LadderCommands

variable {sw : Bool} {s : State}

theorem operandsOk_mlstep_iff : operandsOk (.mlstep sw) s = true ↔ s.arg 0 + 160 ≤ s.cfg.memBytes := by
  simp [operandsOk_iff, operands]

theorem operandsOk_x25519_iff : operandsOk .x25519 s = true ↔
    s.arg 0 + 32 ≤ s.cfg.memBytes ∧ s.arg 1 + 32 ≤ s.cfg.memBytes ∧ s.arg 2 + 32 ≤ s.cfg.memBytes := by
  simp [operandsOk_iff, operands]

/-- MLSTEP stores one ladder step of the record at x[0], from its second element on. -/
theorem storesExactly_mlstep (sw : Bool) (hwf : s.mem.wf) (hin : s.arg 0 + 160 ≤ s.cfg.memBytes) :
    StoresExactly (.mlstep sw) s (s.arg 0 + 32) 128
      (s.ladderBytes (ladderstep sw (s.readField (s.arg 0)) (s.readLadder (s.arg 0)))) :=
  storesExactly_of_store hwf rfl (operandsOk_mlstep_iff.mpr hin) rfl (ladderBytes_length s _)

/-- X25519 writes its output and ends with WEAK_PUBLIC_KEY exactly if that is all zero (rules R215, R255). -/
theorem effectOf_x25519 (s : State) : effectOf .x25519 s =
    s.storeSharedSecret (s.arg 0) (x25519 (s.read (s.arg 1) 32) (s.read (s.arg 2) 32)) := rfl

theorem storeSharedSecret_of_ne {out : List Byte} (h : out ≠ zeros 32) (addr : Nat) :
    s.storeSharedSecret addr out = s.store addr out := by
  rw [State.storeSharedSecret, if_neg h]; rfl

end LadderCommands

/-- Settles O34: MLSTEP's effect is one store, of the four elements of the step. -/
theorem mlstepRewritesTheRecord : Obligations.MlstepRewritesTheRecord := by
  refine ⟨fun sw s hwf hin => storesExactly_mlstep sw hwf hin, fun sw s hout => ?_, rfl, rfl,
    rejectsReservedBits_of_formatF (c := .mlstep) (by decide)⟩
  exact raisesOnly_addrRange rfl (by rw [operandsOk_mlstep_iff]; omega)

/-- Settles O35: X25519's effect is one store in both cases, and the error is raised on the all-zero output. -/
theorem x25519StoresTheSharedSecret : Obligations.X25519StoresTheSharedSecret := by
  refine ⟨fun s hwf h0 h1 h2 => ?_, fun s hout => ?_, rfl, rejectsReservedBits_of_formatZ (i := .x25519) (by decide)⟩
  · intro out
    have hok := operandsOk_x25519_iff.mpr ⟨h0, h1, h2⟩
    have hlen : out.length = 32 := x25519_length _ _
    have heff : effectOf .x25519 s = s.storeSharedSecret (s.arg 0) out := effectOf_x25519 s
    clear_value out
    refine ⟨fun hne => ?_, fun hzero => ?_⟩
    · exact storesExactly_of_store hwf rfl hok (heff.trans (storeSharedSecret_of_ne hne _)) hlen
    · have herr : (effectOf .x25519 s).err = some .weakPublicKey := by
        rw [heff, storeSharedSecret_err]; exact if_pos hzero
      have hmem : (effectOf .x25519 s).mem = s.mem.write (s.arg 0) out := by rw [heff, storeSharedSecret_mem]
      refine ⟨_, exec_inRange rfl hok, completesErr_complete herr, ?_, ?_, fun a ha => ?_⟩
      · rw [complete_x, heff, storeSharedSecret_x]
      · rw [complete_mem, hmem, ← hlen, Memory.read_write_same hwf]
      · rw [complete_mem, hmem, Memory.byte_write_outside hwf (hlen.symm ▸ ha)]
  · exact raisesOnly_addrRange rfl (by rw [operandsOk_x25519_iff]; omega)

/-! ### The ladder of the X25519 command (rule R216) -/

/-- One iteration of rule R216. The recursion is unfolded by name, as in `psmulFrom_succ`. -/
theorem ladderFrom_succ (k x1 t : Nat) (prev : Bool) (l : Ladder) : ladderFrom k x1 (t + 1) prev l =
    ladderFrom k x1 t (k.testBit t) (ladderstep (prev ^^ k.testBit t) x1 l) := by
  delta ladderFrom
  rfl

/-- The bit that the loop returns is the last one it has read, bit 0. -/
theorem ladderFrom_fst (k x1 t : Nat) (prev : Bool) (l : Ladder) :
    (ladderFrom k x1 (t + 1) prev l).1 = k.testBit 0 := by
  induction t generalizing prev l with
  | zero => rw [ladderFrom_succ, ladderFrom]
  | succ t ih => rw [ladderFrom_succ, ih]

/-- The ladder after the 255 iterations of rule R216, before the final swap. -/
def ladderOf (scalar u : List Byte) : Ladder :=
  (ladderFrom (clamp (LE scalar)) (udec u) 255 false ⟨1, 0, udec u, 1⟩).2

/-- Bit 0 of a clamped scalar is clear, so the final swap of rule R216 swaps nothing. -/
theorem x25519_eq (scalar u : List Byte) :
    x25519 scalar u = toLE (fmul (ladderOf scalar u).x2 (finv (ladderOf scalar u).z2)) 32 := by
  have hbit : (clamp (LE scalar)).testBit 0 = false := by rw [testBit_clamp]; simp
  simp only [x25519, ladderFrom_fst _ _ 254, hbit]
  rfl

/-! ### The record in MEM (rule R69) -/

/-- Four elements of GF(p) (rule R18). -/
structure Ladder.Reduced (l : Ladder) : Prop where
  x2 : l.x2 < p
  z2 : l.z2 < p
  x3 : l.x3 < p
  z3 : l.z3 < p

theorem ladderstep_reduced (sw : Bool) (x1 : Nat) (l : Ladder) : (ladderstep sw x1 l).Reduced :=
  ⟨fmul_lt _ _, fmul_lt _ _, fsq_lt _, fmul_lt _ _⟩

section Record

variable {s t : State} {a v : Nat} {l : Ladder}

/-- Whatever representative was stored, the element is read back (rules R8, R120). -/
theorem readField_of_read_eq (h : t.read a 32 = s.fieldBytes v) (hv : v < p) : t.readField a = v := by
  rw [State.readField, State.readLE, h, State.fieldBytes, LE_toLE_of_lt (rep255_lt s.cfg hv), fdec,
    rep255_mod_p s.cfg hv]

theorem slice_ladderBytes (s : State) (l : Ladder) :
    slice (s.ladderBytes l) 0 (0 + 32) = s.fieldBytes l.x2 ∧ slice (s.ladderBytes l) 32 (32 + 32) = s.fieldBytes l.z2 ∧
    slice (s.ladderBytes l) 64 (64 + 32) = s.fieldBytes l.x3 ∧
    slice (s.ladderBytes l) 96 (96 + 32) = s.fieldBytes l.z3 := by
  simp [slice, State.ladderBytes, List.drop_append, List.drop_eq_nil_of_le, List.take_of_length_le]

/-- The elements stored are the elements read (rule R69). -/
theorem readLadder_of_read_eq (h : t.read (a + 32) 128 = s.ladderBytes l) (hl : l.Reduced) : t.readLadder a = l := by
  obtain ⟨hx2, hz2, hx3, hz3⟩ := slice_ladderBytes s l
  rw [← h, slice_read t (a + 32) (by decide)] at hx2 hz2 hx3 hz3
  simp only [Nat.add_assoc, Nat.reduceAdd] at hx2 hz2 hx3 hz3
  rw [State.readLadder, readField_of_read_eq hx2 hl.x2, readField_of_read_eq hz2 hl.z2,
    readField_of_read_eq hx3 hl.x3, readField_of_read_eq hz3 hl.z3]

end Record

/-! ### The ladder by MLSTEP commands (rules R211, R216) -/

/-- x[0] is the address `a`, inside MEM, of a ladder record of x1 and the four elements of `l`. -/
structure HoldsLadder (a x1 : Nat) (l : Ladder) (s : State) : Prop where
  wf    : s.mem.wf
  addr  : s.arg 0 = a
  inMem : a + 160 ≤ s.cfg.memBytes
  first : s.readField a = x1
  rest  : s.readLadder a = l

namespace HoldsLadder

variable {a x1 : Nat} {l : Ladder} {s : State}

/-- One MLSTEP command is one ladder step of the record. -/
theorem mlstep (h : HoldsLadder a x1 l s) (sw : Bool) :
    HoldsLadder a x1 (ladderstep sw x1 l) (stateAfter s (exec (.mlstep sw) s)) := by
  obtain ⟨hwf, rfl, hin, rfl, rfl⟩ := h
  obtain ⟨t, hexec, hok, hx, hread, hframe⟩ := storesExactly_mlstep sw hwf hin
  have hfirst : SameBytes s t (s.arg 0) 32 := fun b hb => (hframe b (by simp only [InRegion] at hb ⊢; omega)).symm
  rw [hexec, stateAfter]
  exact ⟨exec_wf hexec hwf, by rw [State.arg, hx, State.arg], hok.around.cfg ▸ hin, hfirst.readField,
    readLadder_of_read_eq hread (ladderstep_reduced _ _ _)⟩

/-- The MLSTEP commands for the n low bits of k are the n last iterations of rule R216. -/
theorem commands (h : HoldsLadder a x1 l s) (k n : Nat) :
    HoldsLadder a x1 (ladderFrom k x1 n (k.testBit n) l).2 (runCommands (ladderCommands k n) s) := by
  induction n generalizing l s with
  | zero => exact h
  | succ n ih =>
    rw [ladderFrom_succ, Bool.xor_comm]
    exact ih (h.mlstep _)

end HoldsLadder

/-- Settles O58: the commands keep that the record holds the ladder of rule R216, whose first `prev` is bit 255 of the
clamped scalar. -/
theorem ladderCommandsMakeX25519 : Obligations.LadderCommandsMakeX25519 := by
  intro s scalar u _ hwf hin hfirst hrest t
  have hinit : HoldsLadder (s.arg 0) (udec u) ⟨1, 0, udec u, 1⟩ s := ⟨hwf, rfl, hin, hfirst, hrest⟩
  have hbit : (clamp (LE scalar)).testBit 255 = false := by simp [testBit_clamp]
  rw [x25519_eq, ladderOf, (hinit.commands (clamp (LE scalar)) 255).rest, hbit]

/-! ### Peer keys of low order (rule R215)

With x / z the u-coordinate of a point, x·z·(x² - z²) = 0 says that twice the point has x·z = 0, which the elements of
the ladder meet throughout if the peer key does. -/

/-- The pair stands for 0, infinity, 1 or -1, or is (0, 0). -/
def LowOrder {R : Type} [CommRing R] (x z : R) : Prop := x * z * (x ^ 2 - z ^ 2) = 0

section Identities

variable {R : Type} [CommRing R] {x1 x2 z2 x3 z3 : R}

theorem lowOrder_of_mul_eq_zero (h : x2 * z2 = 0) : LowOrder x2 z2 := by rw [LowOrder, h, zero_mul]

/-- The doubling of rule R212: E is 4·x·z, and A²·B² is (x² - z²)². -/
theorem LowOrder.double (h : LowOrder x2 z2) {A B E : R} (hA : A = x2 + z2) (hB : B = x2 - z2)
    (hE : E = A * A - B * B) (c : R) : A * A * (B * B) * (E * (A * A + c * E)) = 0 := by
  have hABE : A * B * E = 0 := by
    rw [LowOrder] at h
    rw [hE, hA, hB]
    linear_combination 4 * h
  calc A * A * (B * B) * (E * (A * A + c * E)) = A * B * E * (A * B * (A * A + c * E)) := by ring
    _ = 0 := by rw [hABE, zero_mul]

/-- The addition of rule R212. With M = D·A + C·B and N = D·A - C·B, M·N·(M² - N²) is 0 because each pair is of low
order, and x1·x1² is x1. -/
theorem LowOrder.add (h1 : LowOrder x1 1) (h2 : LowOrder x2 z2) (h3 : LowOrder x3 z3) {M N : R}
    (hM : M = (x3 - z3) * (x2 + z2) + (x3 + z3) * (x2 - z2))
    (hN : N = (x3 - z3) * (x2 + z2) - (x3 + z3) * (x2 - z2)) : LowOrder (M * M) (x1 * (N * N)) := by
  rw [LowOrder] at h1 h2 h3 ⊢
  have hMN : M * N * (M ^ 2 - N ^ 2) = 0 := by
    rw [hM, hN]
    linear_combination 16 * (x3 ^ 4 - z3 ^ 4) * h2 - 16 * (x2 ^ 4 - z2 ^ 4) * h3
  linear_combination x1 * M * N * (M ^ 2 + N ^ 2) * hMN - M ^ 2 * N ^ 6 * h1

end Identities

/-- What the ladder keeps for a peer key of low order: x2·z2 = 0 with (x3, z3) of low order. -/
structure Ladder.LowOrder (l : Ladder) : Prop where
  double : (l.x2 : ZMod p) * l.z2 = 0
  sum    : Machine.LowOrder (l.x3 : ZMod p) l.z3

namespace Ladder.LowOrder

variable {l : Ladder}

/-- Swapped or not, both pairs are of low order. -/
theorem cswap (h : l.LowOrder) (sw : Bool) : Machine.LowOrder ((l.cswap sw).x2 : ZMod p) (l.cswap sw).z2 ∧
    Machine.LowOrder ((l.cswap sw).x3 : ZMod p) (l.cswap sw).z3 := by
  have hdouble := lowOrder_of_mul_eq_zero h.double
  cases sw with
  | false => exact ⟨hdouble, h.sum⟩
  | true => exact ⟨h.sum, hdouble⟩

theorem ladderstep {x1 : Nat} (h : l.LowOrder) (hx1 : Machine.LowOrder (x1 : ZMod p) 1) (sw : Bool) :
    (ladderstep sw x1 l).LowOrder := by
  obtain ⟨h2, h3⟩ := h.cswap sw
  constructor <;> simp only [Machine.ladderstep, fadd_zmod, fsub_zmod, fmul_zmod, fsq_zmod]
  · exact h2.double rfl rfl rfl _
  · exact hx1.add h2 h3 rfl rfl

theorem ladderFrom {x1 : Nat} (h : l.LowOrder) (hx1 : Machine.LowOrder (x1 : ZMod p) 1) (k n : Nat) (prev : Bool) :
    (ladderFrom k x1 n prev l).2.LowOrder := by
  induction n generalizing l prev with
  | zero => exact h
  | succ n ih =>
    rw [ladderFrom_succ]
    exact ih (h.ladderstep hx1 _) _

/-- p being prime, x2 or z2 is 0, and the inverse of 0 is 0. -/
theorem quotient_eq_zero (h : l.LowOrder) : fmul l.x2 (finv l.z2) = 0 := by
  have hdvd : p ∣ l.x2 * l.z2 := (ZMod.natCast_eq_zero_iff _ _).mp (by rw [Nat.cast_mul, h.double])
  obtain hx | hz := prime_p.dvd_mul.mp hdvd
  · exact Nat.mod_eq_zero_of_dvd (hx.mul_right _)
  · rw [finv_of_dvd hz, fmul, mul_zero, Nat.zero_mod]

end Ladder.LowOrder

/-- 0, 1 and -1 are the u-coordinates of low order. -/
theorem lowOrder_of_mem {x1 : Nat} (h : x1 ∈ [0, 1, p - 1]) : LowOrder (x1 : ZMod p) 1 := by
  simp only [List.mem_cons, List.not_mem_nil, or_false] at h
  obtain rfl | rfl | rfl := h
  · simp [LowOrder]
  · simp [LowOrder]
  · simp [LowOrder, Nat.cast_sub p_pos]

/-- Settles O60: the ladder stays of low order, so the quotient it ends in is 0. -/
theorem weakPeerKeysGiveZero : Obligations.WeakPeerKeysGiveZero := by
  intro scalar u hu
  have hx1 := lowOrder_of_mem hu
  have hinit : Ladder.LowOrder ⟨1, 0, udec u, 1⟩ := ⟨by simp, by simpa using hx1⟩
  have hend : (ladderOf scalar u).LowOrder := hinit.ladderFrom hx1 _ 255 false
  rw [x25519_eq, hend.quotient_eq_zero]
  rfl

end Sys2Proof.Machine

/-! PROOFS. Ed25519: the command EDSIGN (rules R225, R226). -/

namespace Sys2Proof.Machine

/-- A hash has 64 bytes: eight words of 8 (rules R66, R170). -/
@[simp] theorem SHA512_length (msg : List Byte) : (SHA512 msg).length = 64 := bytesBE_length _ _

/-- The prefix of rule R226 is all of the seed's hash from byte 32 on. -/
theorem slice_SHA512_upper (msg : List Byte) : slice (SHA512 msg) 32 64 = (SHA512 msg).drop 32 :=
  List.take_of_length_le (by simp)

/-- The group order is below 2^253, so the last of the 32 bytes of S < L is below 0x20. -/
theorem getD_toLE_last_lt {S : Nat} (hS : S < groupOrder) : ((toLE S 32).getD 31 0).toNat < 0x20 := by
  have hdiv : S / 256 ^ 31 < 0x20 := Nat.div_lt_of_lt_mul (hS.trans (by decide))
  rw [List.getD_eq_getElem _ _ (by simp), toNat_getElem_toLE]
  exact (Nat.mod_le _ _).trans_lt hdiv

/-- The last byte of a signature is the last byte of its S (rule R226). -/
theorem getD_edSign_last_lt (seed msg : List Byte) : ((edSign seed msg).getD 63 0).toNat < 0x20 := by
  rw [edSign, List.getD_append_right _ _ _ _ (by simp), penc_length]
  exact getD_toLE_last_lt (Nat.mod_lt _ (by decide))

theorem operandsOk_edsign_iff {s : State} : operandsOk .edsign s = true ↔
    s.arg 0 + 64 ≤ s.cfg.memBytes ∧ s.arg 1 + 32 ≤ s.cfg.memBytes ∧ s.arg 2 + s.arg 3 ≤ s.cfg.memBytes := by
  simp [operandsOk_iff, operands]

/-- Settles O36: EDSIGN's effect is one store, of R and S, and S is below the group order. -/
theorem edsignStoresTheSignature : Obligations.EdsignStoresTheSignature := by
  refine ⟨fun s hwf h0 h1 h2 => ?_, fun s hout => ?_, rfl, rejectsReservedBits_of_formatZ (i := .edsign) (by decide)⟩
  · intro M h a A r R k sig
    have hsig : edSign (s.read (s.arg 1) 32) M = sig := by
      rw [edSign, slice_SHA512_upper]; rfl
    rw [← hsig]
    exact ⟨storesExactly_of_store hwf rfl (operandsOk_edsign_iff.mpr ⟨h0, h1, h2⟩) rfl (edSign_length _ _),
      getD_edSign_last_lt _ _⟩
  · exact raisesOnly_addrRange rfl (by rw [operandsOk_edsign_iff]; omega)

end Sys2Proof.Machine

/-! PROOFS. NOP and ZEROIZE (rules R241, R242), the engine's step and the errors it ends with (rules R252, R256, R262 to
R264). -/

namespace Sys2Proof.Machine

/-! ### NOP and ZEROIZE -/

/-- Settles O21: NOP has no checks and its effect is no change. -/
theorem nopDoesNothing : Obligations.NopDoesNothing :=
  ⟨fun _ => ⟨_, exec_inRange rfl rfl, completesOk_complete rfl, rfl, rfl⟩, rfl,
    rejectsReservedBits_of_formatZ (i := .nop) (by decide)⟩

/-- Settles O37: ZEROIZE's effect is the cleared x and MEM, and every other command has the frame of its outputs. -/
theorem zeroizeClearsMemAndX : Obligations.ZeroizeClearsMemAndX := by
  refine ⟨fun s => ?_, fun i s t hwf hi h => ?_, rfl, rejectsReservedBits_of_formatZ (i := .zeroize) (by decide)⟩
  · exact ⟨_, exec_inRange rfl rfl, completesOk_complete rfl, fun i => Vector.getElem_replicate i.isLt,
      Memory.byte_nil⟩
  · obtain ⟨-, hx, hbyte⟩ := commandsWriteOnlyTheirOutputs i s t hwf hi h
    exact ⟨hx, fun a hout => hbyte a fun r hr _ => hout r hr⟩

/-! ### The engine's step -/

section EngineStep

variable {s : State}

theorem step_of_decode_ok {i : Instr} (hmoves : EngineMoves s) (h : decode s.cur = .ok i) :
    step s = exec i (dropEvent s) := (step_of_engineMoves hmoves).trans (runEngine_ok h)

theorem step_of_decode_error {e : DecodeError} (hmoves : EngineMoves s) (h : decode s.cur = .error e) :
    step s = .next (completeIllegal (dropEvent s)) := (step_of_engineMoves hmoves).trans (runEngine_error h)

theorem completesErr_completeIllegal (s : State) : CompletesErr s (completeIllegal s) 0x01 :=
  completesErr_complete (err := .illegalCmd) rfl

end EngineStep

/-- Settles O6: the engine's step on such a word is the completion with ILLEGAL_CMD. -/
theorem illegalWordRaisesIllegalCmd : Obligations.IllegalWordRaisesIllegalCmd :=
  fun _ _ hmoves hdecode =>
    ⟨_, step_of_decode_error hmoves hdecode, completesErr_completeIllegal _, rfl, rfl⟩

/-- Settles O7: the engine's step is a completion, whatever its effect. -/
theorem engineAlwaysCompletes : Obligations.EngineAlwaysCompletes := by
  intro s hmoves
  obtain ⟨e, he⟩ := runEngine_eq_complete (dropEvent s)
  exact ⟨_, (step_of_engineMoves hmoves).trans he, by simp⟩

/-! ### Errors are precise (rule R264) -/

/-- Settles O40: the errors before the effect write nothing, and the one error of an effect is X25519's. -/
theorem errorsArePrecise : Obligations.ErrorsArePrecise := by
  intro s t hmoves hclean h herr
  cases hd : decode s.cur with
  | error e =>
    rw [step_of_decode_error hmoves hd] at h
    cases h
    exact ⟨fun _ => ⟨rfl, rfl⟩, fun hcode => absurd hcode (by simp [completeIllegal, CmdError.code])⟩
  | ok i =>
    rw [step_of_decode_ok hmoves hd] at h
    obtain ⟨-, rfl⟩ | ⟨-, -, rfl⟩ | ⟨-, -, hran⟩ := exec_cases h
    · exact ⟨fun _ => ⟨rfl, rfl⟩, fun hcode => absurd hcode (by simp [CmdError.code])⟩
    · exact ⟨fun _ => ⟨rfl, rfl⟩, fun hcode => absurd hcode (by simp [CmdError.code])⟩
    · cases hran with
      | nop | zeroize => simp [hclean] at herr
      | wrote region output low high error =>
        obtain rfl | ⟨rfl, rfl⟩ := error
        · simp [hclean] at herr
        · exact ⟨fun hcode => absurd rfl hcode, fun _ => rfl⟩

/-! ### The code that a command ends with (rule R256) -/

theorem CmdError.code_ne_zero (e : CmdError) : e.code ≠ 0 := by cases e <;> decide

/-- Without an error before, ERR says after a completion whether ERRCODE holds one. -/
theorem Status.complete_err_iff {st : Status} (herr : st.err = false) (hcode : st.errcode = 0) (r : Option CmdError) :
    (st.complete r).err = true ↔ (st.complete r).errcode ≠ 0 := by
  cases r with
  | none => simp [herr, hcode]
  | some e => exact iff_of_true rfl e.code_ne_zero

section ErrorCode

variable {i : Instr} {s t : State} {code : Byte}

/-- Only P13ACC has a value check (rules R103, R253). -/
theorem valueOk_iff : valueOk i s = true ↔ (i = .p13acc → 1 ≤ s.arg 3 ∧ s.arg 3 ≤ 16) := by
  by_cases hi : i = .p13acc
  · subst hi
    simp [valueOk_p13acc_iff]
  · cases i with
    | p13acc => exact absurd rfl hi
    | _ => simp [valueOk]

theorem RaisesOnly.errcode_eq (h : RaisesOnly i s code) (hexec : exec i s = .next t) : t.status.errcode = code := by
  obtain ⟨t', hexec', herr, -, -⟩ := h
  cases hexec.symm.trans hexec'
  exact herr.errcode

/-- The one error that an effect ends with is WEAK_PUBLIC_KEY, of X25519 with the all-zero output (rule R255). -/
theorem effectOf_err (i : Instr) (s : State) : (effectOf i s).err =
    if i = .x25519 ∧ x25519 (s.read (s.arg 1) 32) (s.read (s.arg 2) 32) = zeros 32
    then some .weakPublicKey else none := by
  by_cases hi : i = .x25519
  · subst hi
    simp only [effectOf_x25519, storeSharedSecret_err, true_and]
  · rw [if_neg fun h => hi h.1]
    cases i with
    | x25519 => exact absurd rfl hi
    | _ => rfl

/-- Inside its ranges, without an error before, a command ends with the code of its effect. -/
theorem errcode_of_inRange (hcode : s.status.errcode = 0) (hv : valueOk i s = true) (ho : operandsOk i s = true)
    (hexec : exec i s = .next t) : t.status.errcode =
      if i = .x25519 ∧ x25519 (s.read (s.arg 1) 32) (s.read (s.arg 2) 32) = zeros 32 then 0x12 else 0x00 := by
  rw [exec_inRange hv ho] at hexec
  cases hexec
  rw [complete_status, effectOf_err]
  split
  · rfl
  · exact hcode

end ErrorCode

/-- Settles O41: the checks are made in the order of rule R102, and only past all of them the effect gives the code. -/
theorem errorPriority : Obligations.ErrorPriority := by
  intro s t hmoves herr hcode h
  refine ⟨fun e hd => ?_, fun hd harg => ?_, fun i hd harg hout => ?_, fun i hd harg hin => ?_, ?_⟩
  · rw [step_of_decode_error hmoves hd] at h
    cases h
    rfl
  · rw [step_of_decode_ok hmoves hd] at h
    refine (raisesOnly_argRange ?_).errcode_eq h
    rw [valueOk_p13acc_iff, dropEvent_arg]
    omega
  · rw [step_of_decode_ok hmoves hd] at h
    refine (raisesOnly_addrRange (s := dropEvent s) (valueOk_iff.mpr harg) fun ho => ?_).errcode_eq h
    obtain ⟨r, hr, hlt⟩ := hout
    exact absurd (operandsOk_iff.mp ho r hr) (Nat.not_le.mpr hlt)
  · rw [step_of_decode_ok hmoves hd] at h
    exact errcode_of_inRange (s := dropEvent s) hcode (valueOk_iff.mpr harg) (operandsOk_iff.mpr hin) h
  · obtain ⟨e, he⟩ := runEngine_eq_complete (dropEvent s)
    rw [step_of_engineMoves hmoves, he] at h
    cases h
    exact Status.complete_err_iff herr hcode e.err

end Sys2Proof.Machine

/-! PROOFS. Reset from every state (rules R290, R292, R293), and what starts a command, ends it and clears its error
(rules R28, R263, R266, R267). -/

namespace Sys2Proof.Machine

/-! ### Reset -/

theorem step_of_reset {s : State} {rest : List Event} (h : s.port.pending = .reset :: rest) :
    step s = .next (resetBlock (dropEvent s)) := by rw [step, nextTurn_reset h]

/-- Settles O20: both are the reset of the block, which keeps the parameters and the port. -/
theorem resetFromEveryState : Obligations.ResetFromEveryState := by
  refine ⟨fun s rest hp => ?_, fun s v hv => ?_⟩
  · refine ⟨_, step_of_reset hp, blockIsReset_resetBlock _, rfl, ?_, rfl⟩
    rw [resetBlock_port, dropEvent_pending, hp, List.tail_cons]
  · exact ⟨_, by rw [hostWrite32_ctrl, writeCtrl_srst hv], blockIsReset_resetBlock s, rfl, rfl⟩

/-! ### What a host access does to the command in the block -/

/-- The host accesses that change BUSY, CUR, ERR or ERRCODE, each with its next state: the soft reset (rule R292), the
clearing of ERR (rule R266), and the CMD write that is accepted (rule R28). -/
inductive ChangesCommand (s : State) : HostOp → State → Prop where
  | softReset (v : Word) (srst : v.getLsbD 1 = true) : ChangesCommand s (.write32 0x008 v) (resetBlock s)
  | clearErr (v : Word) (clears : v.getLsbD 2 = true) : ChangesCommand s (.write32 0x00C v) (writeStatus s v)
  | accepted (v : Word) (idle : s.status.busy = false) (noErr : s.status.err = false) :
      ChangesCommand s (.write32 0x010 v) { s with cur := v, status := s.status.accept }

/-- BUSY, CUR, ERR and ERRCODE are as before. -/
structure SameCommand (s t : State) : Prop where
  busy    : t.status.busy = s.status.busy
  cur     : t.cur = s.cur
  err     : t.status.err = s.status.err
  errcode : t.status.errcode = s.status.errcode

section HostCommand

variable {s t : State} {op : HostOp} {off : Nat} {v : Word}

/-- STATUS stands at one offset of the map (rule R34). -/
theorem eq_of_regAt_status (h : regAt off = .status) : off = 0x00C := by
  unfold regAt at h
  split_ifs at h
  assumption

/-- CMD stands at one offset of the map (rule R34). -/
theorem eq_of_regAt_cmd (h : regAt off = .cmd) : off = 0x010 := by
  unfold regAt at h
  split_ifs at h
  assumption

theorem sameCommand_refuseAccess (s : State) : SameCommand s (refuseAccess s) := ⟨rfl, rfl, rfl, rfl⟩

theorem ReadAnswer.sameCommand (h : ReadAnswer s op t) : SameCommand s t := by cases h <;> exact ⟨rfl, rfl, rfl, rfl⟩

/-- A STATUS write without bit 2 leaves ERR and ERRCODE (rule R27). -/
theorem sameCommand_writeStatus (h : v.getLsbD 2 = false) : SameCommand s (writeStatus s v) :=
  ⟨rfl, rfl, by rw [writeStatus, Status.writeOneToClear_err, h, Bool.not_false, Bool.and_true],
    by rw [writeStatus, Status.writeOneToClear_errcode, h, if_neg Bool.false_ne_true]⟩

theorem sameCommand_writeArg (s : State) (i : Fin 8) (v : Word) : SameCommand s (writeArg s i v) := by
  rw [writeArg]
  split <;> exact ⟨rfl, rfl, rfl, rfl⟩

theorem sameCommand_hostMemWrite (s : State) (a : Nat) (d : MemData) : SameCommand s (hostMemWrite s a d) := by
  rw [hostMemWrite]
  split <;> exact ⟨rfl, rfl, rfl, rfl⟩

theorem hostWrite32_command (h : hostWrite32 s off v = .next t) :
    SameCommand s t ∨ ChangesCommand s (.write32 off v) t := by
  obtain ⟨-, rfl⟩ := hostWrite32_next h
  cases hr : regAt off with
  | ctrl =>
    obtain rfl := eq_of_regAt_ctrl hr
    cases hv : v.getLsbD 1 with
    | true => rw [writeReg, writeCtrl_srst hv]; exact .inr (.softReset v hv)
    | false => rw [writeReg, writeCtrl_irqEn hv]; exact .inl ⟨rfl, rfl, rfl, rfl⟩
  | status =>
    obtain rfl := eq_of_regAt_status hr
    cases hv : v.getLsbD 2 with
    | true => exact .inr (.clearErr v hv)
    | false => exact .inl (sameCommand_writeStatus hv)
  | cmd =>
    obtain rfl := eq_of_regAt_cmd hr
    cases hb : s.status.busy with
    | true => rw [writeReg, writeCmd_refused (.inl hb)]; exact .inl (sameCommand_refuseAccess s)
    | false =>
      cases he : s.status.err with
      | true => rw [writeReg, writeCmd_refused (.inr he)]; exact .inl (sameCommand_refuseAccess s)
      | false => rw [writeReg, writeCmd_accepted hb he]; exact .inr (.accepted v hb he)
  | arg i => exact .inl (sameCommand_writeArg s i v)
  | id | cfg | reserved => exact .inl ⟨rfl, rfl, rfl, rfl⟩

theorem hostAccess_command (h : hostAccess s op = .next t) : SameCommand s t ∨ ChangesCommand s op t := by
  cases op with
  | read32 off => exact .inl (readAnswer_hostRead32 h).sameCommand
  | write32 off v => exact hostWrite32_command h
  | memRead a n => cases h; exact .inl (readAnswer_hostMemRead s a n).sameCommand
  | memWrite a d => cases h; exact .inl (sameCommand_hostMemWrite s a d)

/-- While BUSY = 1 a host access is the soft reset, or keeps BUSY, CUR, x and MEM (rules R36, R73, R292). -/
theorem hostAccess_of_busy (hb : s.status.busy = true) (h : hostAccess s op = .next t) :
    (∃ v, op = .write32 0x008 v ∧ v.getLsbD 1 = true) ∨ (t.status.busy = true ∧ t.cur = s.cur ∧ SameOperands s t) := by
  have hnot : s.status.busy ≠ false := by simp [hb]
  obtain hsame | hmay := hostAccess_operands h
  · obtain hcmd | hchange := hostAccess_command h
    · exact .inr ⟨hcmd.busy.trans hb, hcmd.cur, hsame⟩
    · cases hchange with
      | softReset v srst => exact .inl ⟨v, rfl, srst⟩
      | clearErr v clears => exact .inr ⟨hb, rfl, hsame⟩
      | accepted v idle noErr => exact absurd idle hnot
  · cases hmay with
    | softReset v srst => exact .inl ⟨v, rfl, srst⟩
    | arg i v idle => exact absurd idle hnot
    | mem a d idle inMem => exact absurd idle hnot

end HostCommand

/-- Settles O46: of the host's accesses only the soft reset ends a running command. -/
theorem busyEndsOnlyByCompletionOrReset : Obligations.BusyEndsOnlyByCompletionOrReset := by
  intro s t hb h
  obtain ⟨op, rest, hp, hstep⟩ | ⟨rest, hp, -⟩ | ⟨hturn, -, -⟩ | ⟨-, hidle, -⟩ := step_cases s
  · rw [hstep] at h
    obtain ⟨v, rfl, srst⟩ | ⟨hbusy, hcur, hsame⟩ := hostAccess_of_busy (s := dropEvent s) hb h
    · exact .inr (.inr (.inl ⟨v, rest, hp, srst⟩))
    · exact .inr (.inr (.inr ⟨hbusy, hcur, hsame.x, hsame.mem⟩))
  · exact .inr (.inl ⟨rest, hp⟩)
  · exact .inl ⟨hb, hturn⟩
  · exact absurd hidle (by simp [hb])

/-! ### An error and its clearing -/

/-- The write of 1 to STATUS.ERR clears ERR and ERRCODE and nothing else (rule R266). -/
theorem writeStatus_clearErr (s : State) :
    writeStatus s 0x00000004 = { s with status := { s.status with err := false, errcode := 0 } } := by
  simp [writeStatus, Status.writeOneToClear]

/-- While ERR = 1 an idle block stays idle, and ERR and ERRCODE stay but for a reset and the clearing of ERR. -/
theorem step_of_err {s t : State} (hb : s.status.busy = false) (he : s.status.err = true) (h : step s = .next t) :
    t.status.busy = false ∧
    ((t.status.err = true ∧ t.status.errcode = s.status.errcode) ∨
     (∃ rest, s.port.pending = .reset :: rest) ∨
     (∃ v rest, s.port.pending = .host (.write32 0x008 v) :: rest ∧ v.getLsbD 1 = true) ∨
     (∃ v rest, s.port.pending = .host (.write32 0x00C v) :: rest ∧ v.getLsbD 2 = true)) := by
  obtain ⟨op, rest, hp, hstep⟩ | ⟨rest, hp, hstep⟩ | ⟨-, hbusy, -⟩ | ⟨-, -, hstep⟩ := step_cases s
  · rw [hstep] at h
    obtain hsame | hchange := hostAccess_command h
    · exact ⟨hsame.busy.trans hb, .inl ⟨hsame.err.trans he, hsame.errcode⟩⟩
    · cases hchange with
      | softReset v srst => exact ⟨rfl, .inr (.inr (.inl ⟨v, rest, hp, srst⟩))⟩
      | clearErr v clears => exact ⟨hb, .inr (.inr (.inr ⟨v, rest, hp, clears⟩))⟩
      | accepted v idle noErr => exact nomatch he.symm.trans noErr
  · rw [hstep] at h
    cases h
    exact ⟨rfl, .inr (.inl ⟨rest, hp⟩)⟩
  · exact absurd hbusy (by simp [hb])
  · rw [hstep] at h
    cases h
    exact ⟨hb, .inl ⟨he, rfl⟩⟩

/-- Settles O47: with ERR = 1 a CMD write is refused, and the clearing leaves a block that accepts the next one. -/
theorem errorBlocksUntilCleared : Obligations.ErrorBlocksUntilCleared := by
  refine ⟨fun s t => step_of_err, fun s v he => ?_, fun s => ?_, fun s t v hb h => ?_⟩
  · rw [hostWrite32_cmd, writeCmd_refused (.inr he)]; rfl
  · rw [hostWrite32_status, writeStatus_clearErr]
  · rw [hostWrite32_status, writeStatus_clearErr] at h
    cases h
    exact ⟨_, (hostWrite32_cmd _ v).trans (congrArg _ (writeCmd_accepted hb rfl)), rfl, rfl⟩

end Sys2Proof.Machine
